-- ==== Sys2Proof/Word.lean ====
section
/-! DEFINITION. The words of the unit: bytes, and the two magnitude classes (spec 00_scope.md R5, R9). -/

namespace Sys2Proof

/-- A byte, bit 7 the most significant (R9). -/
abbrev Byte := BitVec 8

/-- The two magnitude classes `C ∈ {N, X}` (R5): native and extended. -/
inductive Cls
  | N
  | X
deriving DecidableEq, Repr

end Sys2Proof
end

