-- ==== Sys2Proof/Syntax.lean ====
section
/-! DEFINITION. The instructions: one constructor per command of spec 30_encoding.md R65, and the reserved command words of R67.
No command holds an operand in its word (R64): operands are request fields of the state. -/

namespace Sys2Proof

/-- The command words (R65, R67). The table's five RESERVED rows are two constructors: `reservedBusedX` is the row `0x0B`;
`reservedRsv` is the four rows "RSV bit 4, 5, 6, 7 set", which overlap and together cover `0x10`-`0xFF` (log 15). -/
inductive Instr
  /-- `0x00`, R120. -/
  | encN
  /-- `0x01`, R121. -/
  | enciN
  /-- `0x02`, R122. -/
  | decN
  /-- `0x03`, R160. -/
  | bused
  /-- `0x04`, R164. -/
  | bcontN
  /-- `0x05`, R181. -/
  | zzeN
  /-- `0x06`, R182. -/
  | zzdN
  /-- `0x07`, R103. -/
  | btlN
  /-- `0x08`, R140. -/
  | encX
  /-- `0x09`, R141. -/
  | enciX
  /-- `0x0A`, R142. -/
  | decX
  /-- `0x0C`, R165. -/
  | bcontX
  /-- `0x0D`, R183. -/
  | zzeX
  /-- `0x0E`, R184. -/
  | zzdX
  /-- `0x0F`, R104. -/
  | btlX
  /-- `0x0B`: `FUNC = 011` with `X = 1` is reserved (R62, R67). -/
  | reservedBusedX
  /-- A word with some `RSV` bit set, whatever `X` and `FUNC` hold (R63, R67). -/
  | reservedRsv (rsv : BitVec 4) (x : BitVec 1) (func : BitVec 3)
deriving DecidableEq, Repr

end Sys2Proof
end

