-- ==== Sys2Proof/WellFormed.lean ====
section
/-! DEFINITION. Which terms of `Instr` are command words: the one constraint between fields is that `reservedRsv` has a set `RSV`
bit (spec 30_encoding.md R63). -/

namespace Sys2Proof

/-- The check: `RSV ≠ 0000` where the constructor says that the word is reserved for its `RSV` (R63). -/
def Instr.wf (i : Instr) : Bool :=
  match i with
  | .reservedRsv rsv _ _ => rsv != 0#4
  | .encN => true
  | .enciN => true
  | .decN => true
  | .bused => true
  | .bcontN => true
  | .zzeN => true
  | .zzdN => true
  | .btlN => true
  | .encX => true
  | .enciX => true
  | .decX => true
  | .bcontX => true
  | .zzeX => true
  | .zzdX => true
  | .btlX => true
  | .reservedBusedX => true

/-- `i` stands for a command word. -/
abbrev Instr.WellFormed (i : Instr) : Prop := i.wf = true

end Sys2Proof
end

