-- ==== Sys2Proof/Decode.lean ====
section
/-! DEFINITION. The command word `CMD` (spec 30_encoding.md R60 to R67): its fields, the decoder, total on any bytes, and the encoder.
A command is one byte; every one of the 256 bytes is a command or a reserved word (R60), so the only rejection is an input without
a byte. -/

namespace Sys2Proof

/-- `FUNC = CMD[2:0]` (R60). -/
def cmdFunc (w : Byte) : BitVec 3 := w.extractLsb' 0 3

/-- `X = CMD[3]` (R60). -/
def cmdX (w : Byte) : BitVec 1 := w.extractLsb' 3 1

/-- `RSV = CMD[7:4]` (R60). -/
def cmdRsv (w : Byte) : BitVec 4 := w.extractLsb' 4 4

/-- The command of a native word (`X = 0`), by `FUNC` (R61, R65). -/
def decodeNative (func : BitVec 3) : Instr :=
  if func = 0b000#3 then .encN
  else if func = 0b001#3 then .enciN
  else if func = 0b010#3 then .decN
  else if func = 0b011#3 then .bused
  else if func = 0b100#3 then .bcontN
  else if func = 0b101#3 then .zzeN
  else if func = 0b110#3 then .zzdN
  else .btlN

/-- The command of an extended word (`X = 1`), by `FUNC`; `FUNC = 011` is reserved (R61, R62, R65). -/
def decodeExtended (func : BitVec 3) : Instr :=
  if func = 0b000#3 then .encX
  else if func = 0b001#3 then .enciX
  else if func = 0b010#3 then .decX
  else if func = 0b011#3 then .reservedBusedX
  else if func = 0b100#3 then .bcontX
  else if func = 0b101#3 then .zzeX
  else if func = 0b110#3 then .zzdX
  else .btlX

/-- The instruction of a command word (R65): a set `RSV` bit decides first (R63). -/
def decodeCmd (w : Byte) : Instr :=
  if cmdRsv w = 0#4 then
    if cmdX w = 0#1 then decodeNative (cmdFunc w) else decodeExtended (cmdFunc w)
  else .reservedRsv (cmdRsv w) (cmdX w) (cmdFunc w)

/-- Why bytes hold no instruction. -/
inductive DecodeError
  /-- There is no byte to take as `CMD`. -/
  | noCommandWord
deriving DecidableEq, Repr

/-- What the decoder answers: an instruction with the bytes after it, or a rejection by name. -/
inductive Decoded
  | instr (i : Instr) (rest : List Byte)
  | reject (e : DecodeError)
deriving DecidableEq, Repr

/-- The decoder on any bytes: the first byte is `CMD` (R60: one format, no variable length, no prefixes). -/
def decode : List Byte → Decoded
  | [] => .reject .noCommandWord
  | w :: rest => .instr (decodeCmd w) rest

/-- The word of the fields `RSV`, `X`, `FUNC` (R60). -/
def cmdWord (rsv : BitVec 4) (x : BitVec 1) (func : BitVec 3) : Byte := rsv ++ (x ++ func)

/-- The command word of an instruction (R61, R62, R65). -/
def encodeCmd (i : Instr) : Byte :=
  match i with
  | .encN => cmdWord 0b0000#4 0b0#1 0b000#3
  | .enciN => cmdWord 0b0000#4 0b0#1 0b001#3
  | .decN => cmdWord 0b0000#4 0b0#1 0b010#3
  | .bused => cmdWord 0b0000#4 0b0#1 0b011#3
  | .bcontN => cmdWord 0b0000#4 0b0#1 0b100#3
  | .zzeN => cmdWord 0b0000#4 0b0#1 0b101#3
  | .zzdN => cmdWord 0b0000#4 0b0#1 0b110#3
  | .btlN => cmdWord 0b0000#4 0b0#1 0b111#3
  | .encX => cmdWord 0b0000#4 0b1#1 0b000#3
  | .enciX => cmdWord 0b0000#4 0b1#1 0b001#3
  | .decX => cmdWord 0b0000#4 0b1#1 0b010#3
  | .reservedBusedX => cmdWord 0b0000#4 0b1#1 0b011#3
  | .bcontX => cmdWord 0b0000#4 0b1#1 0b100#3
  | .zzeX => cmdWord 0b0000#4 0b1#1 0b101#3
  | .zzdX => cmdWord 0b0000#4 0b1#1 0b110#3
  | .btlX => cmdWord 0b0000#4 0b1#1 0b111#3
  | .reservedRsv rsv x func => cmdWord rsv x func

/-- The bytes of an instruction: its one command word. -/
def encode (i : Instr) : List Byte := [encodeCmd i]

/-- The instruction whose bits are `w` as the table numbers them: the table gives every row 8 bits, bit 0 least significant, so the
command word is the one byte `w`; a number of more than 8 bits is no command word (log 21). -/
def decodeTableWord (nbits w : Nat) : Option Instr :=
  if 8 < nbits ∨ 256 ≤ w then none
  else
    match decode [BitVec.ofNat 8 w] with
    | .instr i _ => some i
    | .reject _ => none

/-! Every constructor's decoding, by a word written out from R65 (fields RSV, X, FUNC in this order). -/

theorem decodeCmd_encN : decodeCmd 0b0000_0_000#8 = .encN := by decide
theorem decodeCmd_enciN : decodeCmd 0b0000_0_001#8 = .enciN := by decide
theorem decodeCmd_decN : decodeCmd 0b0000_0_010#8 = .decN := by decide
theorem decodeCmd_bused : decodeCmd 0b0000_0_011#8 = .bused := by decide
theorem decodeCmd_bcontN : decodeCmd 0b0000_0_100#8 = .bcontN := by decide
theorem decodeCmd_zzeN : decodeCmd 0b0000_0_101#8 = .zzeN := by decide
theorem decodeCmd_zzdN : decodeCmd 0b0000_0_110#8 = .zzdN := by decide
theorem decodeCmd_btlN : decodeCmd 0b0000_0_111#8 = .btlN := by decide
theorem decodeCmd_encX : decodeCmd 0b0000_1_000#8 = .encX := by decide
theorem decodeCmd_enciX : decodeCmd 0b0000_1_001#8 = .enciX := by decide
theorem decodeCmd_decX : decodeCmd 0b0000_1_010#8 = .decX := by decide
theorem decodeCmd_reservedBusedX : decodeCmd 0b0000_1_011#8 = .reservedBusedX := by decide
theorem decodeCmd_bcontX : decodeCmd 0b0000_1_100#8 = .bcontX := by decide
theorem decodeCmd_zzeX : decodeCmd 0b0000_1_101#8 = .zzeX := by decide
theorem decodeCmd_zzdX : decodeCmd 0b0000_1_110#8 = .zzdX := by decide
theorem decodeCmd_btlX : decodeCmd 0b0000_1_111#8 = .btlX := by decide
theorem decodeCmd_reservedRsv : decodeCmd 0b0001_0_010#8 = .reservedRsv 0b0001#4 0b0#1 0b010#3 := by decide

end Sys2Proof
end

