-- ==== Sys2Proof/Config.lean ====
section
/-! DEFINITION. What an implementation fixes (spec 00_scope.md R7): the parameters the spec leaves open, each a constant without a
body, so that a claim holds for every value the spec allows. -/

namespace Sys2Proof

/-- How far `NATIVE_SENTINEL` lies above `2^53`: a free value (log 4). -/
opaque Config.nativeSentinelExcess : Nat

/-- `NATIVE_SENTINEL`, "integer ≥ 2^53" (R7, R20; D10). -/
def Config.nativeSentinel : Nat := 2 ^ 53 + Config.nativeSentinelExcess

/-- How far `A_WIDTH` lies above its least value: a free value (log 5). -/
opaque Config.aWidthExcess : Nat

/-- `A_WIDTH ≥ 130`, the width of the operand port `A` in a realisation (R7; D5). The model's own `A` is unbounded. -/
def Config.aWidth : Nat := 130 + Config.aWidthExcess

/-- How far `R_WIDTH` lies above its least value: a free value (log 5). -/
opaque Config.rWidthExcess : Nat

/-- `R_WIDTH ≥ 135`, the width of the result port `R` in a realisation (R7; D8). The model's own `R` is unbounded. -/
def Config.rWidth : Nat := 135 + Config.rWidthExcess

/-- How far `IN_CAP` lies above its least value: a free value (log 6). -/
opaque Config.inCapExcess : Nat

/-- `IN_CAP ≥ 19`, the most input bytes a realisation accepts (R7; D6). The model's own `IN` has any length. -/
def Config.inCap : Nat := 19 + Config.inCapExcess

end Sys2Proof
end

