-- ==== Sys2Proof/Machine/Cutoff.lean ====
section
/-! DEFINITION. The recurrence of the boundary tables (spec 10_state.md R20). -/

namespace Sys2Proof.Machine

/-- "`cutoff[0] = 128`; `cutoff[i] = (cutoff[i-1] + 1) * 128` for i ≥ 1" (R20). -/
def cutoff : Nat → Nat
  | 0 => 128
  | i + 1 => (cutoff i + 1) * 128

end Sys2Proof.Machine
end

