-- ==== Sys2Proof/Machine/State.lean ====
section
/-! DEFINITION. The state of the unit as plain data (spec 10_state.md), the reasons a step can stop, and the state after reset. The
unit fetches no instructions (R26): the host's requests still to come stand in `script` (R75, log 1). -/

namespace Sys2Proof.Machine

/-- The outcome of a transaction (60_exceptions.md R200); the codes are `Status.code`. -/
inductive Status
  | ok
  | outOfRange
  | precisionLoss
  | unexpectedEnd
  | illegalCommand
  | badTableIndex
deriving DecidableEq, Repr

/-- What a computation of the unit answers: a value, or `raise E` (00_scope.md R10). -/
inductive Res (α : Type)
  | ok (a : α)
  | raise (e : Status)
deriving DecidableEq, Repr

/-- The request fields, all set by the host for each transaction (R23). `A` is a mathematical integer (R8, log 5); `IN` is as long as
the host makes it (log 6); `DEST` and its length stand in `State`, because the host keeps them from one transaction to the next. -/
structure Request where
  /-- `CMD`, 8 bits (R23, R28). -/
  cmd : Byte
  /-- `A`, an integer (R23). -/
  a : Int
  /-- `IN`, `IN[0]` first (R23). -/
  inp : List Byte
  /-- `OFF`, the byte offset into `DEST` (R23). -/
  off : Nat
deriving DecidableEq, Repr

/-- The response fields (R24). `none` is the spec's own "no value (⊥)": what a field holds that the transaction did not produce, and
what every field holds before the first response (R30). -/
structure Response where
  /-- `STATUS`, 3 bits (R24, R200). -/
  status : Option (BitVec 3)
  /-- `LEN`, 5 bits (R24). -/
  len : Option (BitVec 5)
  /-- `OUT[0..18]`, `OUT[0]` first; each lane holds a byte or no value (R24). -/
  out : Vector (Option Byte) 19
  /-- `R`, an integer (R24). -/
  r : Option Int
  /-- `FLAG`, 1 bit, `1` = true (R24). -/
  flag : Option Bool
deriving DecidableEq, Repr

/-- No field holds a value: before the first response (R30). -/
def Response.noValue : Response :=
  { status := none, len := none, out := Vector.replicate 19 none, r := none, flag := none }

/-- An operand `A=` of a host script (R75): an integer, or the `R` of the previous response. -/
inductive ASource
  | lit (v : Int)
  | prevR
deriving DecidableEq, Repr

/-- An operand `IN=` of a host script (R75): bytes, the previous response's `OUT[0..LEN-1]`, or `DEST[j..k]`. -/
inductive InSource
  | bytes (bs : List Byte)
  | prevOut
  | dest (j k : Nat)
deriving DecidableEq, Repr

/-- A line of a host script: one transaction (R75). An operand the source line omits is one the command does not read; whatever stands
here in its place has no effect (logs 12, 13). -/
structure Line where
  cmd : Byte
  a : ASource
  inp : InSource
  off : Nat
deriving DecidableEq, Repr

/-- A response field the host may read (R24); `OUT` lane by lane. -/
inductive RespField
  | status
  | len
  | out (k : Fin 19)
  | r
  | flag
deriving DecidableEq, Repr

/-- An item of a host script: a line, a pseudo-instruction (R76), or one of the host's own actions between transactions, which are no
lines of R75's grammar (log 19). -/
inductive Item
  /-- One transaction (R75). -/
  | line (l : Line)
  /-- `SENC.C A=v` (R76). -/
  | senc (c : Cls) (a : ASource)
  /-- `SENCI.C A=v, OFF=o` (R76). -/
  | senci (c : Cls) (a : ASource) (off : Nat)
  /-- `SDEC.C IN=b` (R76). -/
  | sdec (c : Cls) (inp : InSource)
  /-- The host reads a response field (R24, R233 (b)). -/
  | readField (f : RespField)
  /-- The host hands over a destination buffer of these bytes (R7, R30, R236). -/
  | handDest (bytes : List Byte)
deriving DecidableEq, Repr

/-- The machine: the two read-only tables (R20), the request and response fields (R23, R24), the host-owned destination buffer (R42)
and the host's script (R75). -/
structure State where
  /-- `T_N[0..7]` (R20). -/
  tabN : Vector Nat 8
  /-- `T_X[0..18]` (R20). -/
  tabX : Vector Nat 19
  /-- The request fields of the transaction last presented (R23). -/
  req : Request
  /-- The response fields of the last transaction (R24, R27). -/
  resp : Response
  /-- `DEST_LEN` (R7, R23). -/
  destLen : Nat
  /-- `DEST`, the bytes by offset (R42); an offset below `DEST_LEN` that is not listed holds `0x00` (log 3). -/
  dest : List Host.Cell
  /-- The host's items still to come, the next one first (R75, R235; log 1). -/
  script : List Item
deriving DecidableEq, Repr

/-- Why a step stops with a fault: the model faults of 60_exceptions.md R206, and one access to an address that does not exist. A run
stops at a fault, so the fault is recorded and never cleared (log 14). -/
inductive Fault
  /-- `ENCI.N` with `OFF + 9 > DEST_LEN`, or `ENCI.X` with `OFF + 19 > DEST_LEN` (R45, R206). Raised by `encodeToDest`. Safe: no claim
  covers a breach. -/
  | capacityObligation
  /-- The host reads a response field that holds no value (R24, R206). Raised by `resolveA` and `resolveIn`, and by a `readField` item, all through
  `fetch`. Safe: no claim covers a breach. -/
  | readNoValue
  /-- The host names bytes `DEST[j..k]` beyond `DEST_LEN - 1`, an address that does not exist (20_memory.md R40 (b)). Raised by
  `resolveIn`, through `fetch`. Safe (log 9). -/
  | destIndexOutOfRange
deriving DecidableEq, Repr

/-- Why a step is refused: only where an instruction has no meaning yet, which is true of none. -/
inductive Refusal
  /-- No meaning for this mnemonic yet; would be raised by `exec`'s arm. Safe. -/
  | notModelled (mnemonic : String)
deriving DecidableEq, Repr

/-- What the machine does next, from the head of the script: nothing, a host action alone, a transaction (with the state in which its
request is presented, and the line that follows it only if it ends `OK`), or a fault of the host. -/
inductive Fetched
  | idle
  | act (s : State)
  | issue (i : Instr) (s : State) (thenLine : Option Line)
  | stop (f : Fault)
deriving DecidableEq, Repr

/-- The state after reset (R30, R230): the tables hold their constants (R20), no response field has a value; nothing is requested yet
(log 2), the host has handed over no buffer (log 3) and the script is empty (log 1). -/
def State.reset : State :=
  { tabN := #v[cutoff 0, cutoff 1, cutoff 2, cutoff 3, cutoff 4, cutoff 5, cutoff 6, Config.nativeSentinel]
    tabX := #v[cutoff 0, cutoff 1, cutoff 2, cutoff 3, cutoff 4, cutoff 5, cutoff 6, cutoff 7, cutoff 8, cutoff 9,
      cutoff 10, cutoff 11, cutoff 12, cutoff 13, cutoff 14, cutoff 15, cutoff 16, cutoff 17, cutoff 18]
    req := { cmd := 0#8, a := 0, inp := [], off := 0 }
    resp := Response.noValue
    destLen := 0
    dest := []
    script := [] }

end Sys2Proof.Machine
end

