-- ==== Sys2Proof/Machine/Flags.lean ====
section
/-! DEFINITION. `STATUS`, `FLAG` and the response a transaction leaves (spec 10_state.md R24, R27; 60_exceptions.md R200, R203). Every
response replaces the whole previous one: nothing is sticky (R27). -/

namespace Sys2Proof.Machine

/-- The 3-bit code of a status (R200); codes 6 and 7 are never produced. -/
def Status.code (e : Status) : BitVec 3 :=
  match e with
  | .ok => 0#3
  | .outOfRange => 1#3
  | .precisionLoss => 2#3
  | .unexpectedEnd => 3#3
  | .illegalCommand => 4#3
  | .badTableIndex => 5#3

/-- `raise E`: "`STATUS <- E` and nothing else"; no other field holds a value (R203). -/
def Response.raised (e : Status) : Response :=
  { status := some e.code, len := none, out := Vector.replicate 19 none, r := none, flag := none }

/-- `LEN <- L; done`: `BUSED` and `ENCI.*` (R24). -/
def Response.okLen (len : Nat) : Response :=
  { status := some Status.ok.code, len := some (BitVec.ofNat 5 len), out := Vector.replicate 19 none, r := none, flag := none }

/-- The lanes `OUT[0..18]` that hold the bytes `bs`; lanes from `|bs|` on hold no value (R24). -/
def outLanes (bs : List Byte) : Vector (Option Byte) 19 := Vector.ofFn fun k => bs[k.val]?

/-- `OUT[k] <- bs[k]; LEN <- |bs|; done`: `ENC.*` (R24). -/
def Response.okOut (bs : List Byte) : Response :=
  { status := some Status.ok.code, len := some (BitVec.ofNat 5 bs.length), out := outLanes bs, r := none, flag := none }

/-- `R <- v; done`: `DEC.*`, `ZZE.*`, `ZZD.*`, `BTL.*` (R24). -/
def Response.okR (v : Int) : Response :=
  { status := some Status.ok.code, len := none, out := Vector.replicate 19 none, r := some v, flag := none }

/-- `FLAG <- f; done`: `BCONT.*` (R24, R27). -/
def Response.okFlag (f : Bool) : Response :=
  { status := some Status.ok.code, len := none, out := Vector.replicate 19 none, r := none, flag := some f }

/-- The response says `OK`. -/
def Response.isOk (p : Response) : Bool := p.status = some Status.ok.code

end Sys2Proof.Machine
end

