-- ==== Sys2Proof/Machine/Ops.lean ====
section
/-! DEFINITION. The named operations: class constants, bytes and bit strings, the tables, the destination buffer, and how a
transaction ends (`done`, `raise`). The unit has no traps (spec 60_exceptions.md R209): `State.raise` is its whole way of taking an
error, and there is nothing to return from (R210). -/

namespace Sys2Proof.Machine

/-! Class constants (00_scope.md R5, R6). -/

/-- `CEIL_C`, the ceiling of a class (R5). -/
def ceil (c : Cls) : Nat :=
  match c with
  | .N => 2 ^ 53 - 1
  | .X => 2 ^ 128 - 1

/-- `MAXLEN_C`, the class's maximum length constant (R6; 90_conflicts.md C1). -/
def maxLen (c : Cls) : Nat :=
  match c with
  | .N => 9
  | .X => 19

/-! Bytes and bit strings (R9). -/

/-- The big-endian integer of a byte sequence, `BE` (R9). -/
def beNat : List Byte → Nat
  | [] => 0
  | b :: bs => b.toNat * 256 ^ bs.length + beNat bs

/-- The `len` bytes whose `BE` is `w`, `BYTES_BE(w, len)` (R9). -/
def bytesBE (w : Nat) : Nat → List Byte
  | 0 => []
  | len + 1 => BitVec.ofNat 8 (w / 256 ^ len) :: bytesBE w len

/-- The bits of a byte, bit 7 first (R9). -/
def bitsMsb (b : Byte) : List Bool :=
  [b.getLsbD 7, b.getLsbD 6, b.getLsbD 5, b.getLsbD 4, b.getLsbD 3, b.getLsbD 2, b.getLsbD 1, b.getLsbD 0]

/-- How many one-bits a bit string begins with. -/
def leadingOnes : List Bool → Nat
  | true :: bits => leadingOnes bits + 1
  | false :: _ => 0
  | [] => 0

/-- `clo8(x)`: the leading one-bits of a byte from bit 7, `0..8` (R9). -/
def clo8 (b : Byte) : Nat := leadingOnes (bitsMsb b)

/-! The boundary tables (10_state.md R20; 40_boundary_table.md R100, R101). -/

/-- The table of a class, entry 0 first (R20). -/
def State.table (s : State) (c : Cls) : List Nat :=
  match c with
  | .N => s.tabN.toList
  | .X => s.tabX.toList

/-- `lower_C(i)`: `0` if `i = 0`, else `T_C[i - 1]` (R100). -/
def lower (t : List Nat) : Nat → Nat
  | 0 => 0
  | i + 1 => t.getD i 0

/-- `band_C(v)`: the least `i` with `v < T_C[i]` (R101); with no such entry, which the tables of R20 do not allow for a value of the
class, the number of entries (log 16). -/
def band (t : List Nat) (v : Nat) : Nat := t.findIdx (fun e => decide (v < e))

/-! The destination buffer (20_memory.md R42): cells by rising offset, none holding `0x00`. -/

/-- The canonical form: offsets strictly rising, no listed byte equal to what an unlisted offset reads as. -/
abbrev Memory.wf (m : List Host.Cell) : Prop :=
  m.Pairwise (fun x y => x.1 < y.1) ∧ ∀ x ∈ m, x.2 ≠ 0#8

/-- The byte at an offset; an unlisted offset reads `0x00` (log 3). -/
def Memory.read : List Host.Cell → Nat → Byte
  | [], _ => 0#8
  | x :: m, a => if x.1 = a then x.2 else Memory.read m a

/-- `DEST[a] <- b`, keeping the canonical form. -/
def Memory.write : List Host.Cell → Nat → Byte → List Host.Cell
  | [], a, b => if b = 0#8 then [] else [(a, b)]
  | x :: m, a, b =>
    if a < x.1 then (if b = 0#8 then x :: m else (a, b) :: x :: m)
    else if a = x.1 then (if b = 0#8 then m else (a, b) :: m)
    else x :: Memory.write m a b

/-- `MemWrite(addr, n, v)`: byte `k` of `v` goes to `DEST[addr + k]`, and no other byte changes (R42). -/
def Memory.writeBytes (m : List Host.Cell) (a : Nat) : List Byte → List Host.Cell
  | [] => m
  | b :: bs => Memory.writeBytes (Memory.write m a b) (a + 1) bs

/-- The bytes `DEST[a .. a + n - 1]`. -/
def Memory.readBytes (m : List Host.Cell) (a : Nat) : Nat → List Byte
  | 0 => []
  | n + 1 => Memory.read m a :: Memory.readBytes m (a + 1) n

/-! How a transaction ends (00_scope.md R10; 60_exceptions.md R203). -/

/-- The response is presented; nothing else changes. -/
def State.respond (s : State) (p : Response) : State := { s with resp := p }

/-- `raise E`: `STATUS <- E`, every other response field without a value, `DEST` unchanged (R203). -/
def State.raise (s : State) (e : Status) : State := s.respond (Response.raised e)

/-- `done` with the response a value gives, or the `raise` a computation answered. -/
def State.finish {α : Type} (s : State) (r : Res α) (ofValue : α → Response) : Host.Outcome State Fault Refusal :=
  match r with
  | .ok v => .next (s.respond (ofValue v))
  | .raise e => .next (s.raise e)

end Sys2Proof.Machine
end

