-- ==== Sys2Proof/Machine/Operands.lean ====
section
/-! DEFINITION. Operands: which request fields a command reads (spec 30_encoding.md R64), the range checks on `A`, and how the host
resolves the operands of a script line and presents the request (R75, R23). -/

namespace Sys2Proof.Machine

/-! What a command reads (R64). -/

/-- The commands that read `A` (R64). -/
def readsA (i : Instr) : Bool :=
  match i with
  | .encN => true
  | .enciN => true
  | .decN => false
  | .bused => false
  | .bcontN => false
  | .zzeN => true
  | .zzdN => true
  | .btlN => true
  | .encX => true
  | .enciX => true
  | .decX => false
  | .bcontX => false
  | .zzeX => true
  | .zzdX => true
  | .btlX => true
  | .reservedBusedX => false
  | .reservedRsv _ _ _ => false

/-- The commands that read `IN` (R64). -/
def readsIn (i : Instr) : Bool :=
  match i with
  | .encN => false
  | .enciN => false
  | .decN => true
  | .bused => true
  | .bcontN => true
  | .zzeN => false
  | .zzdN => false
  | .btlN => false
  | .encX => false
  | .enciX => false
  | .decX => true
  | .bcontX => true
  | .zzeX => false
  | .zzdX => false
  | .btlX => false
  | .reservedBusedX => false
  | .reservedRsv _ _ _ => false

/-- The commands that read `OFF` (R64). -/
def readsOff (i : Instr) : Bool :=
  match i with
  | .encN => false
  | .enciN => true
  | .decN => false
  | .bused => false
  | .bcontN => false
  | .zzeN => false
  | .zzdN => false
  | .btlN => false
  | .encX => false
  | .enciX => true
  | .decX => false
  | .bcontX => false
  | .zzeX => false
  | .zzdX => false
  | .btlX => false
  | .reservedBusedX => false
  | .reservedRsv _ _ _ => false

/-! Range checks on `A` (R5; 41_native_codec.md R120, 44_zigzag.md R181). -/

/-- An unsigned operand of a class: negative raises `OutOfRange`, above the ceiling raises `PrecisionLoss` (R120, R140, R182, R184). -/
def unsignedOperand (c : Cls) (a : Int) : Res Nat :=
  if a < 0 then .raise .outOfRange
  else if (ceil c : Int) < a then .raise .precisionLoss
  else .ok a.toNat

/-- The least signed value of a class: `-2^52`, `-2^127` (R181, R183). -/
def signedMin (c : Cls) : Int :=
  match c with
  | .N => -(2 ^ 52 : Nat)
  | .X => -(2 ^ 127 : Nat)

/-- The greatest signed value of a class: `2^52 - 1`, `2^127 - 1` (R181, R183). -/
def signedMax (c : Cls) : Int :=
  match c with
  | .N => (2 ^ 52 - 1 : Nat)
  | .X => (2 ^ 127 - 1 : Nat)

/-- A signed operand of a class: outside its range raises `PrecisionLoss` (R181, R183). -/
def signedOperand (c : Cls) (a : Int) : Res Int :=
  if a < signedMin c ∨ signedMax c < a then .raise .precisionLoss else .ok a

/-! Reading the previous response and `DEST`, as the host does (R24, R75). -/

/-- All the values, if every place holds one. -/
def allValues {α : Type} : List (Option α) → Option (List α)
  | [] => some []
  | none :: _ => none
  | some v :: rest =>
    match allValues rest with
    | none => none
    | some vs => some (v :: vs)

/-- `OUT[0..LEN-1]` of a response; no answer where `LEN` or one of those lanes holds no value (R24, R75; log 8). -/
def Response.outBytes (p : Response) : Option (List Byte) :=
  match p.len with
  | none => none
  | some l => if 19 < l.toNat then none else allValues (p.out.toList.take l.toNat)

/-- The operand `A=` of a line (R75); `A=R` reads the previous response (R24). -/
def resolveA (src : ASource) (s : State) : Except Fault Int :=
  match src with
  | .lit v => .ok v
  | .prevR =>
    match s.resp.r with
    | some v => .ok v
    | none => .error .readNoValue

/-- The operand `IN=` of a line (R75): `OUT` is the previous response's `OUT[0..LEN-1]`; `DEST[j..k]` is the bytes `j` to `k` inclusive
as they stand now, each of which must exist (log 9). -/
def resolveIn (src : InSource) (s : State) : Except Fault (List Byte) :=
  match src with
  | .bytes bs => .ok bs
  | .prevOut =>
    match s.resp.outBytes with
    | some bs => .ok bs
    | none => .error .readNoValue
  | .dest j k =>
    if k < j then .ok []
    else if k < s.destLen then .ok (Memory.readBytes s.dest j (k + 1 - j))
    else .error .destIndexOutOfRange

/-- The operand `A` as presented: a command that does not read it gets no operand resolved for it (R75, log 12). -/
def presentA (i : Instr) (src : ASource) (s : State) : Except Fault Int :=
  if readsA i then resolveA src s else .ok 0

/-- The operand `IN` as presented (R75, log 12). -/
def presentIn (i : Instr) (src : InSource) (s : State) : Except Fault (List Byte) :=
  if readsIn i then resolveIn src s else .ok []

/-- The operand `OFF` as presented (R75, log 12). -/
def presentOff (i : Instr) (off : Nat) : Nat :=
  if readsOff i then off else 0

/-- The host presents the request of a line (R23): every request field is set. -/
def present (l : Line) (s : State) : Except Fault State :=
  match presentA (decodeCmd l.cmd) l.a s, presentIn (decodeCmd l.cmd) l.inp s with
  | .error f, _ => .error f
  | .ok _, .error f => .error f
  | .ok a, .ok bs =>
    .ok { s with req := { cmd := l.cmd, a := a, inp := bs, off := presentOff (decodeCmd l.cmd) l.off } }

/-- Does the response field hold a value? Reading one that does not is `ReadNoValue` (R24, R206). -/
def Response.holds (p : Response) (f : RespField) : Bool :=
  match f with
  | .status => p.status.isSome
  | .len => p.len.isSome
  | .out k => (p.out.get k).isSome
  | .r => p.r.isSome
  | .flag => p.flag.isSome

end Sys2Proof.Machine
end

