-- ==== Sys2Proof/Machine/Boundary.lean ====
section
/-! DEFINITION. Boundary table lookup: `BTL.N`, `BTL.X` (spec 40_boundary_table.md R103, R104). -/

namespace Sys2Proof.Machine

/-- `BTL.C` (R103, R104): entry `A` of the table, `BadTableIndex` outside it. -/
def tableLookup (c : Cls) (s : State) : Host.Outcome State Fault Refusal :=
  if s.req.a < 0 ∨ ((s.table c).length : Int) ≤ s.req.a then .next (s.raise .badTableIndex)
  else .next (s.respond (Response.okR ((s.table c).getD s.req.a.toNat 0)))

/-- `BTL.N` (R103). -/
def execBtlN (s : State) : Host.Outcome State Fault Refusal := tableLookup .N s

/-- `BTL.X` (R104). -/
def execBtlX (s : State) : Host.Outcome State Fault Refusal := tableLookup .X s

end Sys2Proof.Machine
end

