-- ==== Sys2Proof/Machine/Codec.lean ====
section
/-! DEFINITION. What the two classes of codec share: the wire format (spec 30_encoding.md R68 to R70), the encoders, and the prefix
length `bytesUsed` (43_prefix_length_oracle.md R160), which is also the first step of the extended decoder (R142). -/

namespace Sys2Proof.Machine

/-! Encoding. -/

/-- The integer form of an encoding of band `i` with band-local magnitude `m` (R70): `(2^i - 1) * 2^(7L + 1) + m`, `L = i + 1`. -/
def wireWord (i m : Nat) : Nat := (2 ^ i - 1) * 2 ^ (7 * (i + 1) + 1) + m

/-- The bytes of a value under a table (R120, R140): band, band-local magnitude, `BYTES_BE(W, L)`. -/
def wireBytes (t : List Nat) (v : Nat) : List Byte :=
  bytesBE (wireWord (band t v) (v - lower t (band t v))) (band t v + 1)

/-- The bytes that encode the operand `A`, or the error of its range check (R120, R140). -/
def encodeA (c : Cls) (s : State) : Res (List Byte) :=
  match unsignedOperand c s.req.a with
  | .raise e => .raise e
  | .ok v => .ok (wireBytes (s.table c) v)

/-- `ENC.C` (R120, R140): the bytes go to `OUT`. -/
def encodeToOut (c : Cls) (s : State) : Host.Outcome State Fault Refusal :=
  s.finish (encodeA c s) Response.okOut

/-- `ENCI.C` (R121, R141): the capacity obligation first (R45, R207), then the bytes go to `DEST[OFF ..]`, and `LEN` says how many. -/
def encodeToDest (c : Cls) (s : State) : Host.Outcome State Fault Refusal :=
  if s.destLen < s.req.off + maxLen c then .fault .capacityObligation
  else
    match encodeA c s with
    | .raise e => .next (s.raise e)
    | .ok bs => .next { s with resp := Response.okLen bs.length, dest := Memory.writeBytes s.dest s.req.off bs }

/-! Prefix length. -/

/-- The marker scan of `bytesUsed` (R160), bit by bit from the most significant: `c` one-bits are counted so far; the 19th raises
`PrecisionLoss`, a zero-bit ends the scan with `L = c + 1`, and running off the end raises `UnexpectedEnd`. -/
def scanMarker : List Bool → Nat → Res Nat
  | [], _ => .raise .unexpectedEnd
  | true :: bits, c => if c + 1 = 19 then .raise .precisionLoss else scanMarker bits (c + 1)
  | false :: _, c => .ok (c + 1)

/-- `bytesUsed(b)` (R160). -/
def bytesUsed (b : List Byte) : Res Nat :=
  match b with
  | [] => .raise .unexpectedEnd
  | b0 :: rest => scanMarker ((b0 :: rest).flatMap bitsMsb) 0

/-! Decoding. -/

/-- A decoded value against the ceiling of its class (R122, R142; D13). -/
def decodedValue (c : Cls) (v : Nat) : Res Nat :=
  if ceil c < v then .raise .precisionLoss else .ok v

end Sys2Proof.Machine
end

