-- ==== Sys2Proof/Machine/Extended.lean ====
section
/-! DEFINITION. The extended codec: `ENC.X`, `ENCI.X`, `DEC.X` (spec 42_extended_codec.md R140 to R142). -/

namespace Sys2Proof.Machine

/-- `ENC.X` (R140). -/
def execEncX (s : State) : Host.Outcome State Fault Refusal := encodeToOut .X s

/-- `ENCI.X` (R141). -/
def execEnciX (s : State) : Host.Outcome State Fault Refusal := encodeToDest .X s

/-- The extended decoder (R142): an error of `bytesUsed` ends it (D15); then the length check, the payload and the ceiling. -/
def decodeExtendedBytes (t : List Nat) (b : List Byte) : Res Nat :=
  match bytesUsed b with
  | .raise e => .raise e
  | .ok len =>
    if b.length < len then .raise .unexpectedEnd
    else decodedValue .X (lower t (len - 1) + beNat (b.take len) % 2 ^ (7 * len))

/-- `DEC.X` (R142). -/
def execDecX (s : State) : Host.Outcome State Fault Refusal :=
  s.finish (decodeExtendedBytes (s.table .X) s.req.inp) fun v => Response.okR v

end Sys2Proof.Machine
end

