-- ==== Sys2Proof/Machine/Native.lean ====
section
/-! DEFINITION. The native codec: `ENC.N`, `ENCI.N`, `DEC.N` (spec 41_native_codec.md R120 to R122). -/

namespace Sys2Proof.Machine

/-- `ENC.N` (R120). -/
def execEncN (s : State) : Host.Outcome State Fault Refusal := encodeToOut .N s

/-- `ENCI.N` (R121). -/
def execEnciN (s : State) : Host.Outcome State Fault Refusal := encodeToDest .N s

/-- The native decoder on the bytes `b0 :: rest` past the 1-byte fast path, `i` the leading ones of byte 0 (R122). -/
def decodeNativeLong (t : List Nat) (b0 : Byte) (rest : List Byte) (i : Nat) : Res Nat :=
  if rest.length + 1 < i + 1 then .raise .unexpectedEnd
  else if i = 8 then .raise .precisionLoss
  else decodedValue .N (lower t i + (b0.toNat % 2 ^ (7 - i) * 2 ^ (8 * i) + beNat (rest.take i)))

/-- The native decoder (R122), in the order of checks of R207. -/
def decodeNativeBytes (t : List Nat) (b : List Byte) : Res Nat :=
  match b with
  | [] => .raise .unexpectedEnd
  | b0 :: rest => if b0.toNat < 0x80 then .ok b0.toNat else decodeNativeLong t b0 rest (clo8 b0)

/-- `DEC.N` (R122). -/
def execDecN (s : State) : Host.Outcome State Fault Refusal :=
  s.finish (decodeNativeBytes (s.table .N) s.req.inp) fun v => Response.okR v

end Sys2Proof.Machine
end

