-- ==== Sys2Proof/Machine/Oracle.lean ====
section
/-! DEFINITION. The prefix-length oracle: `BUSED`, `BCONT.N`, `BCONT.X` (spec 43_prefix_length_oracle.md R160 to R165). -/

namespace Sys2Proof.Machine

/-- `BUSED` (R160). -/
def execBused (s : State) : Host.Outcome State Fault Refusal := s.finish (bytesUsed s.req.inp) Response.okLen

/-- The walk of `bcont` (R162) over the bytes from position `k` on; `n = |b|` and `maxLen = MAXLEN_C`. -/
def bcontWalk (n maxLen : Nat) : List Byte → Nat → Bool
  | [], _ => false
  | b :: rest, k =>
    if b ≠ 0xFF#8 then decide (min (8 * k + clo8 b + 1) maxLen ≤ n)
    else if maxLen ≤ 8 * (k + 1) + 1 then decide (maxLen ≤ n)
    else bcontWalk n maxLen rest (k + 1)

/-- The completeness function `bcont(C, b)` (R162). -/
def bcont (c : Cls) (b : List Byte) : Bool :=
  if b.length = 0 then false
  else if maxLen c ≤ b.length then true
  else bcontWalk b.length (maxLen c) b 0

/-- `BCONT.N` (R164): `STATUS = OK` always. -/
def execBcontN (s : State) : Host.Outcome State Fault Refusal := .next (s.respond (Response.okFlag (bcont .N s.req.inp)))

/-- `BCONT.X` (R165): `STATUS = OK` always. -/
def execBcontX (s : State) : Host.Outcome State Fault Refusal := .next (s.respond (Response.okFlag (bcont .X s.req.inp)))

end Sys2Proof.Machine
end

