-- ==== Sys2Proof/Machine/Reserved.lean ====
section
/-! DEFINITION. Reserved command words: they read no other request field, write nothing and end with `raise IllegalCommand`
(spec 30_encoding.md R67; 60_exceptions.md R205). -/

namespace Sys2Proof.Machine

/-- `CMD = 0x0B` (R62, R67). -/
def execReservedBusedX (s : State) : Host.Outcome State Fault Refusal := .next (s.raise .illegalCommand)

/-- `CMD` with a set `RSV` bit, whatever `X` and `FUNC` hold (R63, R67). -/
def execReservedRsv (_rsv : BitVec 4) (_x : BitVec 1) (_func : BitVec 3) (s : State) : Host.Outcome State Fault Refusal :=
  .next (s.raise .illegalCommand)

end Sys2Proof.Machine
end

