-- ==== Sys2Proof/Machine/Zigzag.lean ====
section
/-! DEFINITION. The zigzag transform: `ZZE.N`, `ZZD.N`, `ZZE.X`, `ZZD.X` (spec 44_zigzag.md R180 to R184). -/

namespace Sys2Proof.Machine

/-- `zz(v)`: "`v < 0 → −v·2 − 1`; `v ≥ 0 → v·2`" (R180). -/
def zz (v : Int) : Int := if v < 0 then -v * 2 - 1 else v * 2

/-- `unzz(u)`: "odd → `−(v+1)/2`; even → `v/2` (exact integer division)", for `u ≥ 0` (R180). -/
def unzz (u : Nat) : Int := if u % 2 = 1 then -((u + 1) / 2 : Nat) else (u / 2 : Nat)

/-- `ZZE.C` (R181, R183). -/
def zigzagEncode (c : Cls) (s : State) : Host.Outcome State Fault Refusal :=
  s.finish (signedOperand c s.req.a) fun v => Response.okR (zz v)

/-- `ZZD.C` (R182, R184). -/
def zigzagDecode (c : Cls) (s : State) : Host.Outcome State Fault Refusal :=
  s.finish (unsignedOperand c s.req.a) fun u => Response.okR (unzz u)

/-- `ZZE.N` (R181). -/
def execZzeN (s : State) : Host.Outcome State Fault Refusal := zigzagEncode .N s

/-- `ZZD.N` (R182). -/
def execZzdN (s : State) : Host.Outcome State Fault Refusal := zigzagDecode .N s

/-- `ZZE.X` (R183). -/
def execZzeX (s : State) : Host.Outcome State Fault Refusal := zigzagEncode .X s

/-- `ZZD.X` (R184). -/
def execZzdX (s : State) : Host.Outcome State Fault Refusal := zigzagDecode .X s

end Sys2Proof.Machine
end

