-- ==== Sys2Proof/Machine/Dispatch.lean ====
section
/-! DEFINITION. From an instruction to its meaning, one arm per command word (spec 30_encoding.md R65, R67). -/

namespace Sys2Proof.Machine

def exec (i : Instr) (s : State) : Host.Outcome State Fault Refusal :=
  match i with
  | .encN => Sys2Proof.Machine.execEncN s
  | .enciN => Sys2Proof.Machine.execEnciN s
  | .decN => Sys2Proof.Machine.execDecN s
  | .bused => Sys2Proof.Machine.execBused s
  | .bcontN => Sys2Proof.Machine.execBcontN s
  | .zzeN => Sys2Proof.Machine.execZzeN s
  | .zzdN => Sys2Proof.Machine.execZzdN s
  | .btlN => Sys2Proof.Machine.execBtlN s
  | .encX => Sys2Proof.Machine.execEncX s
  | .enciX => Sys2Proof.Machine.execEnciX s
  | .decX => Sys2Proof.Machine.execDecX s
  | .bcontX => Sys2Proof.Machine.execBcontX s
  | .zzeX => Sys2Proof.Machine.execZzeX s
  | .zzdX => Sys2Proof.Machine.execZzdX s
  | .btlX => Sys2Proof.Machine.execBtlX s
  | .reservedBusedX => Sys2Proof.Machine.execReservedBusedX s
  | .reservedRsv rsv x func => Sys2Proof.Machine.execReservedRsv rsv x func s

end Sys2Proof.Machine
end

