-- ==== Sys2Proof/Machine/Script.lean ====
section
/-! DEFINITION. The host's script (spec 30_encoding.md R75, R76; 70_reset_and_hazards.md R235, R236): what the machine does next, and
how a pseudo-instruction goes on. One transaction is one step (R22, R234). -/

namespace Sys2Proof.Machine

/-- The command word of `ENC`, `ENCI`, `DEC`, `ZZE`, `ZZD` in a class (R65), through the encoder. -/
def encWord (c : Cls) : Byte :=
  match c with
  | .N => encodeCmd .encN
  | .X => encodeCmd .encX

/-- `ENCI.C` (R65). -/
def enciWord (c : Cls) : Byte :=
  match c with
  | .N => encodeCmd .enciN
  | .X => encodeCmd .enciX

/-- `DEC.C` (R65). -/
def decWord (c : Cls) : Byte :=
  match c with
  | .N => encodeCmd .decN
  | .X => encodeCmd .decX

/-- `ZZE.C` (R65). -/
def zzeWord (c : Cls) : Byte :=
  match c with
  | .N => encodeCmd .zzeN
  | .X => encodeCmd .zzeX

/-- `ZZD.C` (R65). -/
def zzdWord (c : Cls) : Byte :=
  match c with
  | .N => encodeCmd .zzdN
  | .X => encodeCmd .zzdX

/-- The host issues a line: it presents the request and the unit decodes `CMD`; an operand it cannot read is its fault (R206). -/
def issueLine (l : Line) (thenLine : Option Line) (s : State) : Fetched :=
  match present l s with
  | .error f => .stop f
  | .ok s' => .issue (decodeCmd l.cmd) s' thenLine

/-- The host hands over a buffer of these bytes: `DEST_LEN` and `DEST` are the host's (R7, R30, R42). -/
def handOver (bytes : List Byte) (s : State) : State :=
  { s with destLen := bytes.length, dest := Memory.writeBytes [] 0 bytes }

/-- What an item does (R75, R76); `s` is the state with the item taken off the script. -/
def fetchItem (item : Item) (s : State) : Fetched :=
  match item with
  | .line l => issueLine l none s
  | .senc c a =>
    issueLine { cmd := zzeWord c, a := a, inp := .bytes [], off := 0 }
      (some { cmd := encWord c, a := .prevR, inp := .bytes [], off := 0 }) s
  | .senci c a off =>
    issueLine { cmd := zzeWord c, a := a, inp := .bytes [], off := 0 }
      (some { cmd := enciWord c, a := .prevR, inp := .bytes [], off := off }) s
  | .sdec c inp =>
    issueLine { cmd := decWord c, a := .lit 0, inp := inp, off := 0 }
      (some { cmd := zzdWord c, a := .prevR, inp := .bytes [], off := 0 }) s
  | .readField f => if s.resp.holds f then .act s else .stop .readNoValue
  | .handDest bytes => .act (handOver bytes s)

/-- What the machine does next: nothing where the host presents no request (log 10), else the head of the script. -/
def fetch (s : State) : Fetched :=
  match s.script with
  | [] => .idle
  | item :: rest => fetchItem item { s with script := rest }

/-- After a pseudo-instruction's first transaction: the second is issued next if the first ended `OK`, else never (R76, log 11). -/
def queueIfOk (thenLine : Option Line) (s : State) : State :=
  match thenLine with
  | none => s
  | some l => if s.resp.isOk then { s with script := .line l :: s.script } else s

/-- The outcome of a transaction with what the host queues after it. -/
def andThen (thenLine : Option Line) (o : Host.Outcome State Fault Refusal) : Host.Outcome State Fault Refusal :=
  match o with
  | .next s => .next (queueIfOk thenLine s)
  | .fault f => .fault f
  | .refused r => .refused r

/-- The host issues the command word next, before what its script holds, with operands every command accepts: `A = 0`, `IN = [0x00]`,
`OFF = 0` and a buffer long enough for the capacity obligation (R233 (a)) (log 1). -/
def issueWord (w : Byte) (s : State) : State :=
  { s with
    script := .line { cmd := w, a := .lit 0, inp := .bytes [0#8], off := 0 } :: s.script
    destLen := max s.destLen 19 }

end Sys2Proof.Machine
end

