-- ==== Sys2Proof/Machine/Step.lean ====
section
/-! DEFINITION. One step: one transaction of the host's script, or one of the host's own actions between transactions (spec
10_state.md R22, R26; 70_reset_and_hazards.md R235). -/

namespace Sys2Proof.Machine

/-- One step of the machine. With nothing requested the unit does nothing (log 10). -/
def step (s : State) : Host.Outcome State Fault Refusal :=
  match fetch s with
  | .idle => .next s
  | .act s' => .next s'
  | .issue i s' thenLine => andThen thenLine (exec i s')
  | .stop f => .fault f

/-- `s` with the instruction whose bits are `w` issued next by the host, with operands every command accepts (log 1). The unit fetches
nothing (R26): the head of the script is where `step` finds its next command. -/
def State.withFetchWord (s : State) (_nbits w : Nat) : State := issueWord (BitVec.ofNat 8 w) s

end Sys2Proof.Machine
end

