-- ==== Sys2Proof/Safety.lean ====
section
/-! DEFINITION. The terms claims are stated in: the machine's invariant, and the spec's own notions of a band, a marker and an
encoding (spec 00_scope.md R9, 30_encoding.md R68 to R72), written without the operations of the machine they are used to judge. -/

namespace Sys2Proof.Safety

open Sys2Proof.Machine

/-! The invariant. -/

/-- The read-only tables hold the contents they have from reset (R20, R30). -/
abbrev TablesHold (s : State) : Prop := s.tabN = State.reset.tabN ∧ s.tabX = State.reset.tabX

/-- The listed bytes of `DEST` are in the canonical form and inside the buffer (R42). -/
abbrev DestSound (s : State) : Prop := Memory.wf s.dest ∧ ∀ x ∈ s.dest, x.1 < s.destLen

/-- No field but `STATUS` holds a value. -/
abbrev OnlyStatus (p : Response) : Prop :=
  p.len = none ∧ (∀ k : Fin 19, p.out.get k = none) ∧ p.r = none ∧ p.flag = none

/-- What a response can look like, before the first transaction and after any (R24, R27, R200, R203). -/
structure ResponseSound (p : Response) : Prop where
  /-- "values `0..5` defined, `6` and `7` never produced" (R28, R200). -/
  statusCode : ∀ c, p.status = some c → c.toNat ≤ 5
  /-- "every field but `STATUS` after a `raise`" holds no value (R24, R203). -/
  valuesOnlyOnOk : p.status ≠ some 0#3 → OnlyStatus p
  /-- An `OK` response holds exactly one of `LEN`, `R`, `FLAG` (R24). -/
  oneResult : p.status = some 0#3 →
    (p.len.isSome ∧ p.r = none ∧ p.flag = none) ∨ (p.len = none ∧ p.r.isSome ∧ p.flag = none) ∨
      (p.len = none ∧ p.r = none ∧ p.flag.isSome)
  /-- "5 bits, value `1..19`" (R24). -/
  lenRange : ∀ l, p.len = some l → 1 ≤ l.toNat ∧ l.toNat ≤ 19
  /-- Either no lane of `OUT` holds a value or exactly `OUT[0..LEN-1]` do (R24). -/
  outLanes : (∀ k : Fin 19, p.out.get k = none) ∨
    ∃ l, p.len = some l ∧ ∀ k : Fin 19, (p.out.get k).isSome = decide (k.val < l.toNat)
  /-- `R` lies in `[-2^127, T_X[18]]` (R7), unless it is the free `NATIVE_SENTINEL` (`BTL.N` with `A = 7`, R103). -/
  rRange : ∀ v, p.r = some v → v = Config.nativeSentinel ∨ (-(2 ^ 127) ≤ v ∧ v ≤ cutoff 18)

/-- The invariant of the machine: the tables never change, `DEST` is sound and the response is one the spec allows. -/
structure Sound (s : State) : Prop where
  tables : TablesHold s
  dest : DestSound s
  resp : ResponseSound s.resp

/-! The spec's terms. -/

/-- The lower bound of band `i`: "`cutoff[-1] = 0`" (R100). -/
def lowerBound : Nat → Nat
  | 0 => 0
  | i + 1 => cutoff i

/-- `v` lies in band `i`: "Band i (0-indexed) covers values in `[cutoff[i-1], cutoff[i])`" (R100). -/
abbrev InBand (i v : Nat) : Prop := lowerBound i ≤ v ∧ v < cutoff i

/-- `bs` is the encoding of band `i` with band-local magnitude `m`, in its integer form (R70): `L = i + 1` bytes whose big-endian
integer is `(2^i - 1) * 2^(7L + 1) + m`. -/
abbrev IsEncoding (i m : Nat) (bs : List Byte) : Prop :=
  bs.length = i + 1 ∧ beNat bs = (2 ^ i - 1) * 2 ^ (7 * (i + 1) + 1) + m

/-- Bit `j` of a byte sequence, "MSB first, byte 0 first" (R43, R9). -/
def bitAt (b : List Byte) (j : Nat) : Bool := (b.getD (j / 8) 0#8).getLsbD (7 - j % 8)

/-- The marker of `b` ends with a zero-bit inside `b` at band index `i`: `i` one-bits, then a zero-bit (R68, R72). -/
abbrev MarkerAt (b : List Byte) (i : Nat) : Prop :=
  i < 8 * b.length ∧ (∀ j, j < i → bitAt b j = true) ∧ bitAt b i = false

/-- The first `n` bits of `b` exist and are ones. -/
abbrev OnesTo (b : List Byte) (n : Nat) : Prop := n ≤ 8 * b.length ∧ ∀ j, j < n → bitAt b j = true

/-- The value that the first `i + 1` bytes of `b` denote in band `i`: `lower(i) + m`, `m = BE(b[0..L-1]) mod 2^(7L)` (R70, R73). -/
def denoted (b : List Byte) (i : Nat) : Nat := lowerBound i + beNat (b.take (i + 1)) % 2 ^ (7 * (i + 1))

/-- The number of bands of a class, `NB_C` (R6). -/
def bands (c : Cls) : Nat :=
  match c with
  | .N => 8
  | .X => 19

/-- The greatest value of a class (R5), in decimal as R5 gives it. -/
def ceiling (c : Cls) : Nat :=
  match c with
  | .N => 9007199254740991
  | .X => 340282366920938463463374607431768211455

/-- A class's encoder, decoder, completeness test and zigzag commands, by the names of R65. -/
def encOf (c : Cls) : Instr :=
  match c with
  | .N => .encN
  | .X => .encX

/-- `ENCI.C`. -/
def enciOf (c : Cls) : Instr :=
  match c with
  | .N => .enciN
  | .X => .enciX

/-- `DEC.C`. -/
def decOf (c : Cls) : Instr :=
  match c with
  | .N => .decN
  | .X => .decX

/-- `BCONT.C`. -/
def bcontOf (c : Cls) : Instr :=
  match c with
  | .N => .bcontN
  | .X => .bcontX

/-- `ZZE.C`. -/
def zzeOf (c : Cls) : Instr :=
  match c with
  | .N => .zzeN
  | .X => .zzeX

/-- `ZZD.C`. -/
def zzdOf (c : Cls) : Instr :=
  match c with
  | .N => .zzdN
  | .X => .zzdX

/-- The response that holds `STATUS` alone (R203). -/
def failed (code : BitVec 3) : Response :=
  { status := some code, len := none, out := Vector.replicate 19 none, r := none, flag := none }

/-- The response that holds `STATUS = OK` and `R` (R24). -/
def resultR (v : Int) : Response :=
  { status := some 0#3, len := none, out := Vector.replicate 19 none, r := some v, flag := none }

/-- The response that holds `STATUS = OK` and `LEN` (R24). -/
def lengthOnly (len : Nat) : Response :=
  { status := some 0#3, len := some (BitVec.ofNat 5 len), out := Vector.replicate 19 none, r := none, flag := none }

/-- The response that holds `STATUS = OK`, `LEN = |bs|` and `OUT[0..LEN-1] = bs` (R24). -/
def encodedOut (bs : List Byte) : Response :=
  { status := some 0#3, len := some (BitVec.ofNat 5 bs.length), out := Vector.ofFn fun k : Fin 19 => bs[k.val]?, r := none, flag := none }

/-- The response that holds `STATUS = OK` and `FLAG` (R24). -/
def flagOnly (f : Bool) : Response :=
  { status := some 0#3, len := none, out := Vector.replicate 19 none, r := none, flag := some f }

/-- The operand `A` of a state replaced. -/
def withA (s : State) (a : Int) : State := { s with req := { s.req with a := a } }

/-- The operand `IN` of a state replaced. -/
def withIn (s : State) (b : List Byte) : State := { s with req := { s.req with inp := b } }

end Sys2Proof.Safety
end

