-- ==== Sys2Proof/Certificates/Slice0/Obligations.lean ====
section
/-! DEFINITION. The statements for the provers, from the numbered rules of the spec, family by family. In a statement about one
instruction the next state is written whole (`{ s with … }`), so that it says the frame as well: every field it does not name is
unchanged. -/

open Sys2Proof Sys2Proof.Machine Sys2Proof.Safety

/-! ## Command words (30_encoding.md) -/

/-- R65: the command map, word by word, and the reserved words `0x0B` and `0x10`-`0xFF`. -/
def Obligations.CommandMapDecodes : Prop :=
  decodeCmd 0x00#8 = .encN ∧ decodeCmd 0x01#8 = .enciN ∧ decodeCmd 0x02#8 = .decN ∧ decodeCmd 0x03#8 = .bused ∧
  decodeCmd 0x04#8 = .bcontN ∧ decodeCmd 0x05#8 = .zzeN ∧ decodeCmd 0x06#8 = .zzdN ∧ decodeCmd 0x07#8 = .btlN ∧
  decodeCmd 0x08#8 = .encX ∧ decodeCmd 0x09#8 = .enciX ∧ decodeCmd 0x0A#8 = .decX ∧ decodeCmd 0x0B#8 = .reservedBusedX ∧
  decodeCmd 0x0C#8 = .bcontX ∧ decodeCmd 0x0D#8 = .zzeX ∧ decodeCmd 0x0E#8 = .zzdX ∧ decodeCmd 0x0F#8 = .btlX ∧
  ∀ w : Byte, 0x10 ≤ w.toNat → ∃ rsv x func, decodeCmd w = .reservedRsv rsv x func

/-- Decode and encode agree: every well-formed instruction, with every value of its fields, is what its own bytes decode to, whatever
bytes follow (R60 to R63). -/
def Obligations.DecodeOfEncodeIsTheInstruction : Prop :=
  ∀ (i : Instr) (rest : List Byte), i.WellFormed → decode (encode i ++ rest) = .instr i rest

/-- R60: every one of the 256 words is one instruction, well-formed, whose word it is. -/
def Obligations.EveryWordIsOneInstruction : Prop :=
  ∀ (w : Byte) (rest : List Byte),
    ∃ i : Instr, decode (w :: rest) = .instr i rest ∧ i.WellFormed ∧ encode i = [w] ∧
      ∀ j : Instr, j.WellFormed → encode j = [w] → j = i

/-! ## Reset and the invariant (10_state.md, 70_reset_and_hazards.md) -/

/-- R30, R230: after reset no response field holds a value and both tables hold the constants of R20. -/
def Obligations.ResetHoldsTablesAndNoResponse : Prop :=
  State.reset.resp.status = none ∧ State.reset.resp.len = none ∧ (∀ k : Fin 19, State.reset.resp.out.get k = none) ∧
  State.reset.resp.r = none ∧ State.reset.resp.flag = none ∧
  (∀ i : Fin 19, State.reset.tabX.get i = cutoff i) ∧ (∀ i : Fin 8, i.val < 7 → State.reset.tabN.get i = cutoff i)

/-- The invariant holds right after reset. -/
def Obligations.ResetMeetsInvariant : Prop := Sound State.reset

/-- Every step from a state that meets the invariant leads to one that meets it: the tables never change, `DEST` stays in its canonical
form and inside `DEST_LEN`, `STATUS` is never 6 or 7, `LEN` is 1 to 19, exactly the fields R24 names hold values, and `R` stays in its
range. -/
def Obligations.StepKeepsInvariant : Prop := ∀ s t : State, Sound s → step s = .next t → Sound t

/-! ## The step (10_state.md R22, R23, R26; 30_encoding.md R75, R76) -/

/-- A step runs the decoded instruction: with a line at the head of the script whose operands the host can read, the step is `exec` of
the instruction that the line's command word decodes to, in the state in which its request is presented. -/
def Obligations.StepRunsDecodedInstruction : Prop :=
  ∀ (s s' : State) (l : Line) (rest : List Item) (i : Instr),
    s.script = .line l :: rest → decode [l.cmd] = .instr i [] → present l { s with script := rest } = .ok s' →
      step s = exec i s'

/-- What presenting a line does: it sets the request, `CMD` to the line's word and every operand the command reads to what the line
names, and changes nothing else (R23, R64, R75). The last clause is no rule's: `withFetchWord`, which makes any command word the next one
this way, is the model's own (log 1); so is what a field that the command does not read is set to (log 12), of which nothing is said. -/
def Obligations.PresentSetsTheRequest : Prop :=
  (∀ (l : Line) (s s' : State), present l s = .ok s' →
    s' = { s with req := s'.req } ∧ s'.req.cmd = l.cmd ∧
    (readsA (decodeCmd l.cmd) = true → resolveA l.a s = .ok s'.req.a) ∧
    (readsIn (decodeCmd l.cmd) = true → resolveIn l.inp s = .ok s'.req.inp) ∧
    (readsOff (decodeCmd l.cmd) = true → s'.req.off = l.off)) ∧
  (∀ (l : Line) (s : State) (v : Int) (bs : List Byte), l.a = .lit v → l.inp = .bytes bs → ∃ s', present l s = .ok s') ∧
  ∀ (s : State) (w : Byte), ∃ s' : State, step (s.withFetchWord 8 w.toNat) = exec (decodeCmd w) s' ∧
    s'.req.cmd = w ∧ s'.resp = s.resp ∧ s'.dest = s.dest ∧ s'.tabN = s.tabN ∧ s'.tabX = s.tabX ∧ s'.script = s.script

/-- The host's reading of a response field that holds no value is the fault `ReadNoValue`: as the operand `A=R`, as the operand `IN=OUT`
(which reads `LEN` and `OUT[0..LEN-1]`, log 8), of a line or of a pseudo-instruction, or alone (R24, R206); a field that holds a value is
read without a fault. The host's reading alone as an item of the script, which the step takes off it, is the model's own (log 19). -/
def Obligations.ReadNoValueFaults : Prop :=
  ∀ (s : State) (rest : List Item),
    (∀ l : Line, s.script = .line l :: rest → readsA (decodeCmd l.cmd) = true → l.a = .prevR → s.resp.r = none →
      step s = .fault .readNoValue) ∧
    (∀ l : Line, s.script = .line l :: rest → readsIn (decodeCmd l.cmd) = true → l.inp = .prevOut →
      (s.resp.len = none ∨ ∃ n, s.resp.len = some n ∧ ∃ k : Fin 19, k.val < n.toNat ∧ s.resp.out.get k = none) →
        step s = .fault .readNoValue) ∧
    (∀ c : Cls, (s.script = .senc c .prevR :: rest ∨ ∃ off, s.script = .senci c .prevR off :: rest) → s.resp.r = none →
      step s = .fault .readNoValue) ∧
    (∀ c : Cls, s.script = .sdec c .prevOut :: rest →
      (s.resp.len = none ∨ ∃ n, s.resp.len = some n ∧ ∃ k : Fin 19, k.val < n.toNat ∧ s.resp.out.get k = none) →
        step s = .fault .readNoValue) ∧
    (∀ f : RespField, s.script = .readField f :: rest →
      step s = if s.resp.holds f then .next { s with script := rest } else .fault .readNoValue)

/-- R76: each pseudo-instruction is two transactions, the second issued next, and only if the first ends `OK`. That they stand in a script,
two steps apart, is the model's own (logs 1, 11); a first line that cannot be presented is `ReadNoValueFaults`. -/
def Obligations.PseudoInstructionExpands : Prop :=
  ∀ (s s' t : State) (c : Cls) (item : Item) (rest : List Item) (l1 l2 : Line),
    ((∃ a, item = .senc c a ∧
        l1.cmd = encodeCmd (zzeOf c) ∧ l1.a = a ∧ l2.cmd = encodeCmd (encOf c) ∧ l2.a = .prevR) ∨
     (∃ a o, item = .senci c a o ∧
        l1.cmd = encodeCmd (zzeOf c) ∧ l1.a = a ∧ l2.cmd = encodeCmd (enciOf c) ∧ l2.a = .prevR ∧ l2.off = o) ∨
     (∃ b, item = .sdec c b ∧
        l1.cmd = encodeCmd (decOf c) ∧ l1.inp = b ∧ l2.cmd = encodeCmd (zzdOf c) ∧ l2.a = .prevR)) →
    s.script = item :: rest → present l1 { s with script := rest } = .ok s' → exec (decodeCmd l1.cmd) s' = .next t →
      (t.resp.status ≠ some 0#3 → step s = .next t) ∧
      (t.resp.status = some 0#3 → ∃ u : State, step s = .next u ∧ u = { t with script := u.script } ∧
        step u = step { t with script := .line l2 :: rest })

/-! ## Boundary tables (10_state.md R20, R21; 40_boundary_table.md) -/

/-- R20: the recurrence, the two tables built from it, the closed form, and that no command (no step at all) writes either table. -/
def Obligations.TablesFollowTheRecurrence : Prop :=
  cutoff 0 = 128 ∧ (∀ i, 1 ≤ i → cutoff i = (cutoff (i - 1) + 1) * 128) ∧
  (∀ i : Fin 19, State.reset.tabX.get i = cutoff i) ∧ (∀ i : Fin 8, i.val ≤ 6 → State.reset.tabN.get i = cutoff i) ∧
  State.reset.tabN.get 7 = Config.nativeSentinel ∧ 2 ^ 53 ≤ Config.nativeSentinel ∧
  (∀ i, cutoff i = ∑ k ∈ Finset.Icc 1 (i + 1), 2 ^ (7 * k)) ∧
  ∀ s t : State, step s = .next t → t.tabN = s.tabN ∧ t.tabX = s.tabX

/-- R21: the table values in decimal, their widths, and where the two ceilings fall. -/
def Obligations.TableValuesInDecimal : Prop :=
  (List.range 19).map cutoff =
    [128, 16512, 2113664, 270549120, 34630287488, 4432676798592, 567382630219904, 72624976668147840, 9295997013522923648,
     1189887617730934227072, 152305615069559581065344, 19495118728903626376364160, 2495375197299664176174612608,
     319408025254357014550350413952, 40884227232557697862444852985984, 5233181085767385326392941182206080,
     669847178978225321778296471322378368, 85740438909212841187621948329264431232, 10974776180379243672015609386145847197824] ∧
  (∀ i, i < 19 → Nat.log2 (cutoff i) + 1 = 8 + 7 * i) ∧
  State.reset.tabX.toList = (List.range 19).map cutoff ∧
  State.reset.tabN.toList = (List.range 7).map cutoff ++ [Config.nativeSentinel] ∧
  cutoff 6 ≤ 2 ^ 53 - 1 ∧ 2 ^ 53 - 1 < cutoff 7 ∧ cutoff 17 ≤ 2 ^ 128 - 1 ∧ 2 ^ 128 - 1 < cutoff 18

/-- R100: the lower bound of a band, from the table of each class; the two agree on bands 0 to 7, where the sentinel is never read. -/
def Obligations.LowerBoundOfABand : Prop :=
  ∀ s : State, TablesHold s →
    (∀ (c : Cls) (i : Nat), i < bands c → lower (s.table c) i = if i = 0 then 0 else (s.table c).getD (i - 1) 0) ∧
    (∀ (c : Cls) (i : Nat), i < bands c → lower (s.table c) i = lowerBound i) ∧
    ∀ i, i ≤ 7 → lower (s.table .N) i = lower (s.table .X) i

/-- R101: the band of a value of the class exists, is the least entry above the value, and is the same in both classes for a native
value. -/
def Obligations.BandIsTheLeastEntryAbove : Prop :=
  ∀ s : State, TablesHold s →
    (∀ (c : Cls) (v : Nat), v ≤ ceiling c →
      band (s.table c) v < bands c ∧ v < (s.table c).getD (band (s.table c) v) 0 ∧
      (∀ j, j < band (s.table c) v → (s.table c).getD j 0 ≤ v) ∧ InBand (band (s.table c) v) v) ∧
    band (s.table .N) (ceiling .N) = 7 ∧ band (s.table .X) (ceiling .X) = 18 ∧
    ∀ v, v ≤ ceiling .N → band (s.table .N) v = band (s.table .X) v

/-- R102: band `i` holds exactly `2^(7(i+1))` values, bands are disjoint and ordered, a larger value never has a lower band, and the
native class uses the values from `T_N[6]` on in its band 7, fewer than `2^56`. -/
def Obligations.BandLaws : Prop :=
  (∀ i, cutoff i - lowerBound i = 2 ^ (7 * (i + 1)) ∧ lowerBound i ≤ cutoff i) ∧
  (∀ i j v w, InBand i v → InBand j w → v ≤ w → i ≤ j) ∧
  ∀ (s : State) (c : Cls), TablesHold s →
    (∀ i, i < bands c → (c = .X ∨ i ≠ 7) → (s.table c).getD i 0 - lower (s.table c) i = 2 ^ (7 * (i + 1))) ∧
    (∀ v w, v ≤ w → w ≤ ceiling c → band (s.table c) v ≤ band (s.table c) w) ∧
    (∀ v, v ≤ ceiling .N → (band (s.table .N) v = 7 ↔ cutoff 6 ≤ v)) ∧ ceiling .N + 1 - cutoff 6 < 2 ^ 56

/-- R103: `BTL.N`. -/
def Obligations.BtlNLooksUpTheNativeTable : Prop :=
  decode [0x07#8] = .instr .btlN [] ∧
  ∀ s : State,
    (s.req.a < 0 ∨ 7 < s.req.a → exec .btlN s = .next { s with resp := failed 5#3 }) ∧
    (∀ i : Fin 8, s.req.a = i.val → exec .btlN s = .next { s with resp := resultR (s.tabN.get i) }) ∧
    (TablesHold s → s.req.a = 7 → exec .btlN s = .next { s with resp := resultR Config.nativeSentinel })

/-- R104: `BTL.X`. -/
def Obligations.BtlXLooksUpTheExtendedTable : Prop :=
  decode [0x0F#8] = .instr .btlX [] ∧
  ∀ s : State,
    (s.req.a < 0 ∨ 18 < s.req.a → exec .btlX s = .next { s with resp := failed 5#3 }) ∧
    (∀ i : Fin 19, s.req.a = i.val → exec .btlX s = .next { s with resp := resultR (s.tabX.get i) }) ∧
    (TablesHold s → s.req.a = 18 →
      exec .btlX s = .next { s with resp := resultR 10974776180379243672015609386145847197824 })

/-! ## The codecs (41_native_codec.md, 42_extended_codec.md) -/

/-- R120: `ENC.N`. -/
def Obligations.EncNEncodesToOut : Prop :=
  decode [0x00#8] = .instr .encN [] ∧
  ∀ s : State,
    (s.req.a < 0 → exec .encN s = .next { s with resp := failed 1#3 }) ∧
    (2 ^ 53 - 1 < s.req.a → exec .encN s = .next { s with resp := failed 2#3 }) ∧
    (∀ v : Nat, TablesHold s → s.req.a = v → v ≤ 2 ^ 53 - 1 →
      ∃ i bs, i ≤ 7 ∧ InBand i v ∧ IsEncoding i (v - lowerBound i) bs ∧
        exec .encN s = .next { s with resp := encodedOut bs })

/-- R121: `ENCI.N`. The bytes written are those `ENC.N` gives; the offset stored to is `OFF`. -/
def Obligations.EnciNEncodesToDest : Prop :=
  decode [0x01#8] = .instr .enciN [] ∧
  ∀ s : State,
    (s.destLen < s.req.off + 9 → exec .enciN s = .fault .capacityObligation) ∧
    (s.req.off + 9 ≤ s.destLen → s.req.a < 0 → exec .enciN s = .next { s with resp := failed 1#3 }) ∧
    (s.req.off + 9 ≤ s.destLen → 2 ^ 53 - 1 < s.req.a → exec .enciN s = .next { s with resp := failed 2#3 }) ∧
    (∀ v : Nat, TablesHold s → Memory.wf s.dest → s.req.off + 9 ≤ s.destLen → s.req.a = v → v ≤ 2 ^ 53 - 1 →
      ∃ i bs d, i ≤ 7 ∧ InBand i v ∧ IsEncoding i (v - lowerBound i) bs ∧ s.req.off + bs.length ≤ s.destLen ∧
        exec .enciN s = .next { s with resp := lengthOnly bs.length, dest := d } ∧
        (∀ k, k < bs.length → Memory.read d (s.req.off + k) = bs.getD k 0#8) ∧
        (∀ a, a < s.req.off ∨ s.req.off + bs.length ≤ a → Memory.read d a = Memory.read s.dest a))

/-- R122: `DEC.N`, in the order of its checks. -/
def Obligations.DecNDecodes : Prop :=
  decode [0x02#8] = .instr .decN [] ∧
  ∀ s : State,
    (s.req.inp = [] → exec .decN s = .next { s with resp := failed 3#3 }) ∧
    (∀ (b0 : Byte) (rest : List Byte), s.req.inp = b0 :: rest →
      (b0.toNat < 0x80 → exec .decN s = .next { s with resp := resultR b0.toNat }) ∧
      (0x80 ≤ b0.toNat → s.req.inp.length < clo8 b0 + 1 → exec .decN s = .next { s with resp := failed 3#3 }) ∧
      (b0 = 0xFF#8 → 9 ≤ s.req.inp.length → exec .decN s = .next { s with resp := failed 2#3 }) ∧
      (TablesHold s → 0x80 ≤ b0.toNat → b0 ≠ 0xFF#8 → clo8 b0 + 1 ≤ s.req.inp.length →
        exec .decN s =
          if denoted s.req.inp (clo8 b0) ≤ 2 ^ 53 - 1 then .next { s with resp := resultR (denoted s.req.inp (clo8 b0)) }
          else .next { s with resp := failed 2#3 }))

/-- R123: the native laws: round trip, length agreement, monotonic length. -/
def Obligations.NativeRoundTrip : Prop :=
  ∀ (s : State) (v : Nat), TablesHold s → v ≤ 2 ^ 53 - 1 →
    (∃ t bs, exec .encN (withA s v) = .next t ∧ t.resp.outBytes = some bs ∧ t.resp.len = some (BitVec.ofNat 5 bs.length) ∧
      (∃ u, exec .decN (withIn t bs) = .next u ∧ u.resp.status = some 0#3 ∧ u.resp.r = some (v : Int)) ∧
      (∃ w, exec .bused (withIn t bs) = .next w ∧ w.resp.status = some 0#3 ∧ w.resp.len = t.resp.len)) ∧
    ∀ v' : Nat, v' < v → ∃ t t' l l', exec .encN (withA s v) = .next t ∧ exec .encN (withA s v') = .next t' ∧
      t.resp.len = some l ∧ t'.resp.len = some l' ∧ l'.toNat ≤ l.toNat

/-- R140: `ENC.X`. -/
def Obligations.EncXEncodesToOut : Prop :=
  decode [0x08#8] = .instr .encX [] ∧
  ∀ s : State,
    (s.req.a < 0 → exec .encX s = .next { s with resp := failed 1#3 }) ∧
    (2 ^ 128 - 1 < s.req.a → exec .encX s = .next { s with resp := failed 2#3 }) ∧
    (∀ v : Nat, TablesHold s → s.req.a = v → v ≤ 2 ^ 128 - 1 →
      ∃ i bs, i ≤ 18 ∧ InBand i v ∧ IsEncoding i (v - lowerBound i) bs ∧
        exec .encX s = .next { s with resp := encodedOut bs })

/-- R141: `ENCI.X`. The offset stored to is `OFF`. -/
def Obligations.EnciXEncodesToDest : Prop :=
  decode [0x09#8] = .instr .enciX [] ∧
  ∀ s : State,
    (s.destLen < s.req.off + 19 → exec .enciX s = .fault .capacityObligation) ∧
    (s.req.off + 19 ≤ s.destLen → s.req.a < 0 → exec .enciX s = .next { s with resp := failed 1#3 }) ∧
    (s.req.off + 19 ≤ s.destLen → 2 ^ 128 - 1 < s.req.a → exec .enciX s = .next { s with resp := failed 2#3 }) ∧
    (∀ v : Nat, TablesHold s → Memory.wf s.dest → s.req.off + 19 ≤ s.destLen → s.req.a = v → v ≤ 2 ^ 128 - 1 →
      ∃ i bs d, i ≤ 18 ∧ InBand i v ∧ IsEncoding i (v - lowerBound i) bs ∧ s.req.off + bs.length ≤ s.destLen ∧
        exec .enciX s = .next { s with resp := lengthOnly bs.length, dest := d } ∧
        (∀ k, k < bs.length → Memory.read d (s.req.off + k) = bs.getD k 0#8) ∧
        (∀ a, a < s.req.off ∨ s.req.off + bs.length ≤ a → Memory.read d a = Memory.read s.dest a))

/-- R142: `DEC.X`. The marker of `bytesUsed` (R160) first, then the length, then the ceiling. -/
def Obligations.DecXDecodes : Prop :=
  decode [0x0A#8] = .instr .decX [] ∧
  ∀ s : State,
    (∀ n, OnesTo s.req.inp n → n = 8 * s.req.inp.length → n < 19 → exec .decX s = .next { s with resp := failed 3#3 }) ∧
    (OnesTo s.req.inp 19 → exec .decX s = .next { s with resp := failed 2#3 }) ∧
    (∀ i, i ≤ 18 → MarkerAt s.req.inp i →
      (s.req.inp.length < i + 1 → exec .decX s = .next { s with resp := failed 3#3 }) ∧
      (TablesHold s → i + 1 ≤ s.req.inp.length →
        exec .decX s =
          if denoted s.req.inp i ≤ 2 ^ 128 - 1 then .next { s with resp := resultR (denoted s.req.inp i) }
          else .next { s with resp := failed 2#3 }))

/-- R143: for a native value the two classes' encoders leave the same state, `OUT`, `LEN` or `DEST` included. -/
def Obligations.ClassesAgreeOnNativeValues : Prop :=
  ∀ (s : State) (v : Nat), TablesHold s → s.req.a = v → v ≤ 2 ^ 53 - 1 →
    (∃ t, exec .encX s = .next t ∧ exec .encN s = .next t) ∧
    (s.req.off + 19 ≤ s.destLen → ∃ t, exec .enciX s = .next t ∧ exec .enciN s = .next t)

/-- R144: the extended laws: round trip, the refusal of `2^128`, and the length that `BUSED` gives. -/
def Obligations.ExtendedRoundTrip : Prop :=
  ∀ s : State, TablesHold s →
    (∀ v : Nat, v ≤ 2 ^ 128 - 1 →
      ∃ t bs, exec .encX (withA s v) = .next t ∧ t.resp.outBytes = some bs ∧ t.resp.len = some (BitVec.ofNat 5 bs.length) ∧
        (∃ u, exec .decX (withIn t bs) = .next u ∧ u.resp.status = some 0#3 ∧ u.resp.r = some (v : Int)) ∧
        (∃ w, exec .bused (withIn t bs) = .next w ∧ w.resp.status = some 0#3 ∧ w.resp.len = t.resp.len)) ∧
    (∃ t, exec .encX (withA s (2 ^ 128)) = .next t ∧ t.resp = failed 2#3)

/-- R68: the bit string of an encoding, `1^i`, a zero-bit, then the band-local magnitude in `7L` bits, most significant first. -/
def Obligations.EncodingIsMarkerThenPayload : Prop :=
  ∀ (s : State) (c : Cls) (v i : Nat), TablesHold s → s.req.a = v → v ≤ ceiling c → InBand i v →
    ∃ bs, exec (encOf c) s = .next { s with resp := encodedOut bs } ∧ bs.length = i + 1 ∧ MarkerAt bs i ∧
      ∀ j, j < 7 * (i + 1) → bitAt bs (i + 1 + j) = (v - lowerBound i).testBit (7 * (i + 1) - 1 - j)

/-- R72: where the marker of a byte sequence ends, from its first bytes. -/
def Obligations.LengthFromLeadingBytes : Prop :=
  ∀ (b : List Byte) (i : Nat),
    (i ≤ 7 → (MarkerAt b i ↔ ∃ b0 r, b = b0 :: r ∧ clo8 b0 = i)) ∧
    (8 ≤ i → i ≤ 15 → (MarkerAt b i ↔ ∃ b1 r, b = 0xFF#8 :: b1 :: r ∧ i = 8 + clo8 b1)) ∧
    (16 ≤ i → i ≤ 18 → (MarkerAt b i ↔ ∃ b2 r, b = 0xFF#8 :: 0xFF#8 :: b2 :: r ∧ i = 16 + clo8 b2))

/-- R73: a decoder of class `C` accepts exactly the byte sequences that begin with a well-formed encoding of the class, with the value it
denotes, and rejects every other with `PrecisionLoss` or `UnexpectedEnd`. -/
def Obligations.DecoderAcceptsExactlyWellFormed : Prop :=
  ∀ (s : State) (c : Cls), TablesHold s →
    (∀ i, i < bands c → MarkerAt s.req.inp i → i + 1 ≤ s.req.inp.length → denoted s.req.inp i ≤ ceiling c →
      exec (decOf c) s = .next { s with resp := resultR (denoted s.req.inp i) }) ∧
    ((¬ ∃ i, i < bands c ∧ MarkerAt s.req.inp i ∧ i + 1 ≤ s.req.inp.length ∧ denoted s.req.inp i ≤ ceiling c) →
      exec (decOf c) s = .next { s with resp := failed 2#3 } ∨ exec (decOf c) s = .next { s with resp := failed 3#3 })

/-- R74: canonicity: what a decoder accepts is the encoding its class's encoder produces for the value it decodes to. -/
def Obligations.AcceptedEncodingIsCanonical : Prop :=
  ∀ (s t : State) (c : Cls) (r : Int), TablesHold s → exec (decOf c) s = .next t → t.resp.r = some r →
    ∃ bs, exec (encOf c) (withA s r) = .next { withA s r with resp := encodedOut bs } ∧ bs <+: s.req.inp

/-! ## The oracle (43_prefix_length_oracle.md) -/

/-- R160: `BUSED`. -/
def Obligations.BusedGivesThePrefixLength : Prop :=
  decode [0x03#8] = .instr .bused [] ∧
  ∀ s : State,
    (∀ n, OnesTo s.req.inp n → n = 8 * s.req.inp.length → n < 19 → exec .bused s = .next { s with resp := failed 3#3 }) ∧
    (OnesTo s.req.inp 19 → exec .bused s = .next { s with resp := failed 2#3 }) ∧
    (∀ i, i ≤ 18 → MarkerAt s.req.inp i → exec .bused s = .next { s with resp := lengthOnly (i + 1) })

/-- R161: length agreement: `BUSED` on the bytes that `ENC.C` answers gives the same `LEN`, their number, in both classes. -/
def Obligations.LengthAgreement : Prop :=
  ∀ (s : State) (c : Cls) (v : Nat), TablesHold s → v ≤ ceiling c →
    ∃ t bs u, exec (encOf c) (withA s v) = .next t ∧ t.resp.outBytes = some bs ∧ t.resp.len = some (BitVec.ofNat 5 bs.length) ∧
      exec .bused (withIn t bs) = .next u ∧ u.resp = lengthOnly bs.length

/-- R163: the closed form of `bcont`, and which bytes it depends on: the first three at most (native: the first), and none after the
first byte that is not `0xFF`. -/
def Obligations.BcontClosedForm : Prop :=
  (∀ (c : Cls) (b : List Byte),
    bcont c b = true ↔ maxLen c ≤ b.length ∨ (1 ≤ b.length ∧ ∃ i, MarkerAt b i ∧ i + 1 ≤ b.length)) ∧
  (∀ b b' : List Byte, b.length = b'.length → b.take 3 = b'.take 3 → bcont .X b = bcont .X b') ∧
  (∀ b b' : List Byte, b.length = b'.length → b.take 1 = b'.take 1 → bcont .N b = bcont .N b') ∧
  ∀ (c : Cls) (p q q' : List Byte) (b0 : Byte), b0 ≠ 0xFF#8 → q.length = q'.length →
    bcont c (p ++ b0 :: q) = bcont c (p ++ b0 :: q')

/-- R164: `BCONT.N`: `OK` always, with `FLAG` by the closed form of R163. -/
def Obligations.BcontNAnswersCompleteness : Prop :=
  decode [0x04#8] = .instr .bcontN [] ∧
  ∀ s : State, ∃ f, exec .bcontN s = .next { s with resp := flagOnly f } ∧
    (f = true ↔ 9 ≤ s.req.inp.length ∨ ∃ i, MarkerAt s.req.inp i ∧ i + 1 ≤ s.req.inp.length)

/-- R165: `BCONT.X`: `OK` always, with `FLAG` by the closed form of R163. -/
def Obligations.BcontXAnswersCompleteness : Prop :=
  decode [0x0C#8] = .instr .bcontX [] ∧
  ∀ s : State, ∃ f, exec .bcontX s = .next { s with resp := flagOnly f } ∧
    (f = true ↔ 19 ≤ s.req.inp.length ∨ ∃ i, MarkerAt s.req.inp i ∧ i + 1 ≤ s.req.inp.length)

/-- R166: streaming: every strict truncation of an encoding is reported incomplete and the whole encoding complete. -/
def Obligations.StreamingIsCorrect : Prop :=
  ∀ (s : State) (c : Cls) (v : Nat), TablesHold s → v ≤ ceiling c →
    ∃ e, exec (encOf c) (withA s v) = .next { withA s v with resp := encodedOut e } ∧
      exec (bcontOf c) (withIn s e) = .next { withIn s e with resp := flagOnly true } ∧
      ∀ n, n < e.length →
        exec (bcontOf c) (withIn s (e.take n)) = .next { withIn s (e.take n) with resp := flagOnly false }

/-- R167: the input window: a command that reads `IN` gives the same response for two inputs that agree on `min(n, 19)` and on the bytes
of its window (`DEC.N` 9, `DEC.X` 19, `BUSED` and `BCONT` 3). -/
def Obligations.InputWindow : Prop :=
  ∀ (i : Instr) (w : Nat), (i, w) ∈ [(Instr.decN, 9), (.decX, 19), (.bused, 3), (.bcontN, 3), (.bcontX, 3)] →
    ∀ (s : State) (b b' : List Byte), min b.length 19 = min b'.length 19 → b.take w = b'.take w →
      ∃ p, exec i (withIn s b) = .next { withIn s b with resp := p } ∧
        exec i (withIn s b') = .next { withIn s b' with resp := p }

/-! ## Zigzag (44_zigzag.md) -/

/-- R181: `ZZE.N`. -/
def Obligations.ZzeNEncodesSigned : Prop :=
  decode [0x05#8] = .instr .zzeN [] ∧
  ∀ s : State,
    (s.req.a < -2 ^ 52 ∨ 2 ^ 52 - 1 < s.req.a → exec .zzeN s = .next { s with resp := failed 2#3 }) ∧
    (-2 ^ 52 ≤ s.req.a → s.req.a ≤ 2 ^ 52 - 1 →
      ∃ u : Int, 0 ≤ u ∧ u ≤ 2 ^ 53 - 1 ∧ (s.req.a < 0 → u = -s.req.a * 2 - 1) ∧ (0 ≤ s.req.a → u = s.req.a * 2) ∧
        exec .zzeN s = .next { s with resp := resultR u })

/-- R182: `ZZD.N`. -/
def Obligations.ZzdNDecodesSigned : Prop :=
  decode [0x06#8] = .instr .zzdN [] ∧
  ∀ s : State,
    (s.req.a < 0 → exec .zzdN s = .next { s with resp := failed 1#3 }) ∧
    (2 ^ 53 - 1 < s.req.a → exec .zzdN s = .next { s with resp := failed 2#3 }) ∧
    (0 ≤ s.req.a → s.req.a ≤ 2 ^ 53 - 1 →
      ∃ v : Int, -2 ^ 52 ≤ v ∧ v ≤ 2 ^ 52 - 1 ∧ (s.req.a % 2 = 1 → v * 2 = -(s.req.a + 1)) ∧ (s.req.a % 2 = 0 → v * 2 = s.req.a) ∧
        exec .zzdN s = .next { s with resp := resultR v })

/-- R183: `ZZE.X`. -/
def Obligations.ZzeXEncodesSigned : Prop :=
  decode [0x0D#8] = .instr .zzeX [] ∧
  ∀ s : State,
    (s.req.a < -2 ^ 127 ∨ 2 ^ 127 - 1 < s.req.a → exec .zzeX s = .next { s with resp := failed 2#3 }) ∧
    (-2 ^ 127 ≤ s.req.a → s.req.a ≤ 2 ^ 127 - 1 →
      ∃ u : Int, 0 ≤ u ∧ u ≤ 2 ^ 128 - 1 ∧ (s.req.a < 0 → u = -s.req.a * 2 - 1) ∧ (0 ≤ s.req.a → u = s.req.a * 2) ∧
        exec .zzeX s = .next { s with resp := resultR u })

/-- R184: `ZZD.X`. -/
def Obligations.ZzdXDecodesSigned : Prop :=
  decode [0x0E#8] = .instr .zzdX [] ∧
  ∀ s : State,
    (s.req.a < 0 → exec .zzdX s = .next { s with resp := failed 1#3 }) ∧
    (2 ^ 128 - 1 < s.req.a → exec .zzdX s = .next { s with resp := failed 2#3 }) ∧
    (0 ≤ s.req.a → s.req.a ≤ 2 ^ 128 - 1 →
      ∃ v : Int, -2 ^ 127 ≤ v ∧ v ≤ 2 ^ 127 - 1 ∧ (s.req.a % 2 = 1 → v * 2 = -(s.req.a + 1)) ∧
        (s.req.a % 2 = 0 → v * 2 = s.req.a) ∧ exec .zzdX s = .next { s with resp := resultR v })

/-- R185: the zigzag laws: the two commands of a class undo each other on everything either accepts, `zz` is a bijection between the
class's signed and unsigned ranges, and the six values the source lists hold in both classes. -/
def Obligations.ZigzagIsABijection : Prop :=
  ∀ (s : State) (c : Cls),
    (∀ (v r : Int) (t : State), exec (zzeOf c) (withA s v) = .next t → t.resp.r = some r →
      ∃ u, exec (zzdOf c) (withA t r) = .next u ∧ u.resp.r = some v) ∧
    (∀ (v r : Int) (t : State), exec (zzdOf c) (withA s v) = .next t → t.resp.r = some r →
      ∃ u, exec (zzeOf c) (withA t r) = .next u ∧ u.resp.r = some v) ∧
    Set.BijOn zz (Set.Icc (-(((ceiling c : Int) + 1) / 2)) (((ceiling c : Int) + 1) / 2 - 1)) (Set.Icc 0 (ceiling c : Int)) ∧
    (∀ p ∈ [((0 : Int), (0 : Int)), (-1, 1), (1, 2), (-2, 3), (2147483647, 4294967294), (-2147483648, 4294967295)],
      exec (zzeOf c) (withA s p.1) = .next { withA s p.1 with resp := resultR p.2 })

/-! ## Reserved words and errors (30_encoding.md R67; 60_exceptions.md) -/

/-- R67: a reserved command word, whichever, reads no other request field, writes nothing and ends with `IllegalCommand`. -/
def Obligations.ReservedWordsRaiseIllegalCommand : Prop :=
  (∀ (w : Byte) (s : State), w = 0x0B#8 ∨ 0x10 ≤ w.toNat →
    readsA (decodeCmd w) = false ∧ readsIn (decodeCmd w) = false ∧ readsOff (decodeCmd w) = false ∧
    exec (decodeCmd w) s = .next { s with resp := failed 4#3 }) ∧
  ∀ (rsv : BitVec 4) (x : BitVec 1) (func : BitVec 3) (s : State),
    exec .reservedBusedX s = .next { s with resp := failed 4#3 } ∧
    exec (.reservedRsv rsv x func) s = .next { s with resp := failed 4#3 }

/-- R200: every transaction that answers gives one of the codes 0 to 5, and gives `OK` exactly where it produces a result. -/
def Obligations.StatusCodesProduced : Prop :=
  ∀ (i : Instr) (s t : State), exec i s = .next t →
    (∃ c, t.resp.status = some c ∧ c.toNat ≤ 5) ∧
    (t.resp.status = some 0#3 ↔ t.resp.len.isSome ∨ t.resp.r.isSome ∨ t.resp.flag.isSome)

/-- R201: `OutOfRange` is raised by exactly the encoders and the unsigned zigzag decoders on a negative `A` (`ENCI.*` after the capacity
obligation, R207). -/
def Obligations.OutOfRangeExactly : Prop :=
  ∀ (i : Instr) (s : State),
    (∃ t, exec i s = .next t ∧ t.resp.status = some 1#3) ↔
      s.req.a < 0 ∧ (i ∈ [Instr.encN, .encX, .zzdN, .zzdX] ∨ (i = .enciN ∧ s.req.off + 9 ≤ s.destLen) ∨
        (i = .enciX ∧ s.req.off + 19 ≤ s.destLen))

/-- R202: `PrecisionLoss` is raised by exactly these commands under exactly these conditions (`ENCI.*` after the capacity obligation,
R207). -/
def Obligations.PrecisionLossExactly : Prop :=
  ∀ (i : Instr) (s : State), TablesHold s →
    ((∃ t, exec i s = .next t ∧ t.resp.status = some 2#3) ↔
      (i = .encN ∧ 2 ^ 53 - 1 < s.req.a) ∨
      (i = .enciN ∧ s.req.off + 9 ≤ s.destLen ∧ 2 ^ 53 - 1 < s.req.a) ∨
      (i = .encX ∧ 2 ^ 128 - 1 < s.req.a) ∨
      (i = .enciX ∧ s.req.off + 19 ≤ s.destLen ∧ 2 ^ 128 - 1 < s.req.a) ∨
      (i = .decN ∧ s.req.inp.head? = some 0xFF#8 ∧ 9 ≤ s.req.inp.length) ∨
      (i = .decN ∧ ∃ k, k ≤ 7 ∧ MarkerAt s.req.inp k ∧ k + 1 ≤ s.req.inp.length ∧ 2 ^ 53 - 1 < denoted s.req.inp k) ∨
      ((i = .decX ∨ i = .bused) ∧ OnesTo s.req.inp 19) ∨
      (i = .decX ∧ ∃ k, k ≤ 18 ∧ MarkerAt s.req.inp k ∧ k + 1 ≤ s.req.inp.length ∧ 2 ^ 128 - 1 < denoted s.req.inp k) ∨
      (i = .zzeN ∧ (s.req.a < -2 ^ 52 ∨ 2 ^ 52 - 1 < s.req.a)) ∨
      (i = .zzeX ∧ (s.req.a < -2 ^ 127 ∨ 2 ^ 127 - 1 < s.req.a)) ∨
      (i = .zzdN ∧ 2 ^ 53 - 1 < s.req.a) ∨ (i = .zzdX ∧ 2 ^ 128 - 1 < s.req.a))

/-- R204: `UnexpectedEnd` is raised by exactly `DEC.N`, `DEC.X` and `BUSED`, on an empty input, an unterminated marker or a short input. -/
def Obligations.UnexpectedEndExactly : Prop :=
  ∀ (i : Instr) (s : State),
    (∃ t, exec i s = .next t ∧ t.resp.status = some 3#3) ↔
      (i = .decN ∧ (s.req.inp = [] ∨ ∃ b0 r, s.req.inp = b0 :: r ∧ s.req.inp.length < clo8 b0 + 1)) ∨
      (i = .decX ∧ (s.req.inp = [] ∨ (OnesTo s.req.inp (8 * s.req.inp.length) ∧ 8 * s.req.inp.length < 19) ∨
        ∃ k, k ≤ 18 ∧ MarkerAt s.req.inp k ∧ s.req.inp.length < k + 1)) ∨
      (i = .bused ∧ (s.req.inp = [] ∨ (OnesTo s.req.inp (8 * s.req.inp.length) ∧ 8 * s.req.inp.length < 19)))

/-- R205: `IllegalCommand` is raised by exactly the reserved words, whatever the other request fields hold, and `BadTableIndex` by exactly
`BTL.*` outside its table. -/
def Obligations.IllegalCommandAndBadTableIndexExactly : Prop :=
  ∀ (i : Instr) (s : State),
    ((∃ t, exec i s = .next t ∧ t.resp.status = some 4#3) ↔
      i = .reservedBusedX ∨ ∃ rsv x func, i = .reservedRsv rsv x func) ∧
    ((∃ t, exec i s = .next t ∧ t.resp.status = some 5#3) ↔
      (i = .btlN ∧ (s.req.a < 0 ∨ 7 < s.req.a)) ∨ (i = .btlX ∧ (s.req.a < 0 ∨ 18 < s.req.a))) ∧
    ∀ (q : Request) (t : State), exec i s = .next t → t.resp.status = some 4#3 →
      exec i { s with req := q } = .next { t with req := q }

/-- R203: an error leaves `STATUS` and nothing else: no other response field holds a value, and `DEST` and everything else is as before. -/
def Obligations.ErrorChangesStatusOnly : Prop :=
  ∀ (i : Instr) (s t : State), exec i s = .next t → t.resp.status ≠ some 0#3 →
    t = { s with resp := t.resp } ∧ OnlyStatus t.resp

/-- R45: the capacity obligation is the one fault of any command, and a breach of it is a fault whatever the value. -/
def Obligations.CapacityObligationExactly : Prop :=
  ∀ (i : Instr) (s : State),
    ((∃ f, exec i s = .fault f) ↔ (i = .enciN ∧ s.destLen < s.req.off + 9) ∨ (i = .enciX ∧ s.destLen < s.req.off + 19)) ∧
    (∀ f, exec i s = .fault f → f = .capacityObligation) ∧ ∀ r, exec i s ≠ .refused r

/-- R24, R27: which response fields each command produces on `OK`; the previous response has no part in it (R27: nothing is sticky). -/
def Obligations.ResponseFieldsProduced : Prop :=
  (∀ (i : Instr) (s t : State), exec i s = .next t → t.resp.status = some 0#3 →
    (t.resp.len.isSome ↔ i ∈ [Instr.encN, .enciN, .encX, .enciX, .bused]) ∧
    ((∃ k : Fin 19, (t.resp.out.get k).isSome) → i ∈ [Instr.encN, .encX]) ∧
    (t.resp.r.isSome ↔ i ∈ [Instr.decN, .decX, .zzeN, .zzeX, .zzdN, .zzdX, .btlN, .btlX]) ∧
    (t.resp.flag.isSome ↔ i ∈ [Instr.bcontN, .bcontX])) ∧
  ∀ (i : Instr) (s : State) (p : Response) (t : State), exec i s = .next t →
    exec i { s with resp := p } = .next t

/-- R46: only `ENCI.*` changes `DEST`, only on `OK`, and only in `DEST[OFF .. OFF + LEN - 1]`, inside the buffer; nothing else of the state
but the response is changed by any command. -/
def Obligations.OnlyEnciWritesDest : Prop :=
  ∀ (i : Instr) (s t : State), Memory.wf s.dest → exec i s = .next t →
    t = { s with resp := t.resp, dest := t.dest } ∧
    (i ≠ .enciN → i ≠ .enciX → t.dest = s.dest) ∧ (t.resp.status ≠ some 0#3 → t.dest = s.dest) ∧
    (TablesHold s → ∀ l, (i = .enciN ∨ i = .enciX) → t.resp.len = some l →
      s.req.off + l.toNat ≤ s.destLen ∧
      ∀ a, a < s.req.off ∨ s.req.off + l.toNat ≤ a → Memory.read t.dest a = Memory.read s.dest a)

/-- R47: a command is a function of the request fields it reads and the tables: two states that agree on these (and on `DEST_LEN`, for
`ENCI.*` alone, the commands that read `OFF` and write `DEST`) get the same response, whatever else they hold; and repeating `ENCI.*` writes
nothing new. -/
def Obligations.CommandsArePure : Prop :=
  (∀ (i : Instr) (s s' t : State), s.tabN = s'.tabN → s.tabX = s'.tabX → (readsOff i = true → s.destLen = s'.destLen) →
    (readsA i = true → s.req.a = s'.req.a) → (readsIn i = true → s.req.inp = s'.req.inp) →
    (readsOff i = true → s.req.off = s'.req.off) → exec i s = .next t →
      ∃ t', exec i s' = .next t' ∧ t'.resp = t.resp) ∧
  ∀ (i : Instr) (s t : State), Memory.wf s.dest → exec i s = .next t →
    ∃ t', exec i t = .next t' ∧ t'.resp = t.resp ∧ ∀ a, Memory.read t'.dest a = Memory.read t.dest a

/-! ## Whole scripts -/

/-- A signed value survives `SENC.C` and `SDEC.C`: from any state that holds the tables, the script `SENC.C A=v; SDEC.C IN=OUT` ends, four
transactions later, with `OK` and `R = v` (R76, R123, R144, R185). The script and its steps are the model's own (logs 1, 11). -/
def Obligations.SignedScriptRoundTrip : Prop :=
  ∀ (s : State) (c : Cls) (v : Int), TablesHold s →
    -(((ceiling c : Int) + 1) / 2) ≤ v → v ≤ ((ceiling c : Int) + 1) / 2 - 1 →
      ∃ t : State, Host.Core.run core 4 { s with script := [.senc c (.lit v), .sdec c .prevOut] } = .next t ∧
        t.resp = resultR v ∧ t.script = [] ∧ t.dest = s.dest

/-- A host that reads `DEST` after `ENCI.C` sees the bytes it wrote (R46, R49, R75, R123, R144; the script is the model's own, log 1): encoding `v` at `OFF` and decoding from `DEST[OFF ..]` two
transactions later gives `v` back, whatever the buffer held behind the encoding. -/
def Obligations.DestScriptRoundTrip : Prop :=
  ∀ (s : State) (c : Cls) (v off : Nat), Sound s → v ≤ ceiling c → off + maxLen c ≤ s.destLen →
    ∃ t : State, Host.Core.run core 2
        { s with script := [.line { cmd := encodeCmd (enciOf c), a := .lit v, inp := .bytes [], off := off },
          .line { cmd := encodeCmd (decOf c), a := .lit 0, inp := .dest off (off + maxLen c - 1), off := 0 }] } = .next t ∧
      t.resp = resultR v ∧ t.script = []

/-- R7: the ports of a realisation, at every width the spec allows, hold every `A` from `-2^128` to `2^128` and every `R` but the free
`NATIVE_SENTINEL` (two's complement of `A_WIDTH` and `R_WIDTH` bits, free parameters: logs 4, 5, 6). -/
def Obligations.PortsHoldOperandsAndResults : Prop :=
  (∀ a : Int, -2 ^ 128 ≤ a → a ≤ 2 ^ 128 → -2 ^ (Config.aWidth - 1) ≤ a ∧ a < 2 ^ (Config.aWidth - 1)) ∧ 19 ≤ Config.inCap ∧
  ∀ (i : Instr) (s t : State) (v : Int), TablesHold s → exec i s = .next t → t.resp.r = some v →
    v = Config.nativeSentinel ∨ (-2 ^ (Config.rWidth - 1) ≤ v ∧ v < 2 ^ (Config.rWidth - 1))
end

