-- ==== Sys2Proof/Laws/Bytes.lean ====
section
/-! SUPPORT. `BE` and `BYTES_BE` are inverse to each other, and their bounds (spec 00_scope.md R9). -/

namespace Sys2Proof.Machine

@[simp] theorem bytesBE_length (w len : Nat) : (bytesBE w len).length = len := by
  induction len with
  | zero => rfl
  | succ len ih => simp [bytesBE, ih]

theorem beNat_lt (bs : List Byte) : beNat bs < 256 ^ bs.length := by
  induction bs with
  | nil => simp [beNat]
  | cons b bs ih =>
    simp only [beNat, List.length_cons, pow_succ]
    have hb : b.toNat < 256 := b.isLt
    have : (b.toNat + 1) * 256 ^ bs.length ≤ 256 * 256 ^ bs.length := Nat.mul_le_mul_right _ hb
    rw [Nat.add_mul, Nat.one_mul] at this
    rw [Nat.mul_comm (256 ^ bs.length)]
    omega

/-- `BE(BYTES_BE(w, len)) = w` for `w < 2^(8 len)`; any other `w` loses its high bytes. -/
theorem beNat_bytesBE (w len : Nat) : beNat (bytesBE w len) = w % 256 ^ len := by
  induction len with
  | zero => simp [bytesBE, beNat, Nat.mod_one]
  | succ len ih =>
    rw [bytesBE, beNat, bytesBE_length, ih, BitVec.toNat_ofNat, pow_succ 256 len, Nat.mod_mul, Nat.mul_comm, Nat.add_comm]

/-- A byte sequence is determined by its length and its `BE`. -/
theorem beNat_injective (bs cs : List Byte) (hl : bs.length = cs.length) (h : beNat bs = beNat cs) : bs = cs := by
  induction bs generalizing cs with
  | nil => cases cs with
    | nil => rfl
    | cons c cs => simp at hl
  | cons b bs ih => cases cs with
    | nil => simp at hl
    | cons c cs =>
      have hl' : bs.length = cs.length := by simpa using hl
      have h1 := beNat_lt bs
      have h2 := beNat_lt cs
      simp only [beNat] at h
      rw [hl'] at h h1
      have hb : b.toNat = c.toNat := by
        have e1 := Nat.add_mul_div_right (beNat bs) b.toNat (Nat.lt_of_le_of_lt (Nat.zero_le _) h1)
        have e2 := Nat.add_mul_div_right (beNat cs) c.toNat (Nat.lt_of_le_of_lt (Nat.zero_le _) h1)
        rw [Nat.div_eq_of_lt h1] at e1
        rw [Nat.div_eq_of_lt h2] at e2
        rw [Nat.add_comm] at e1 e2
        rw [h] at e1
        omega
      rw [hb] at h
      rw [ih cs hl' (by omega), BitVec.eq_of_toNat_eq hb]

theorem bytesBE_beNat (bs : List Byte) : bytesBE (beNat bs) bs.length = bs := by
  refine beNat_injective _ _ (by simp) ?_
  rw [beNat_bytesBE, Nat.mod_eq_of_lt (beNat_lt bs)]

theorem beNat_append (bs cs : List Byte) : beNat (bs ++ cs) = beNat bs * 256 ^ cs.length + beNat cs := by
  induction bs with
  | nil => simp [beNat]
  | cons b bs ih => simp only [List.cons_append, beNat, ih, List.length_append, pow_add]; ring

end Sys2Proof.Machine
end

