-- ==== Sys2Proof/Laws/Tables.lean ====
section
/-! SUPPORT. The boundary tables under `TablesHold`: their entries, lower bounds, and the band of a value (spec 10_state.md R20,
40_boundary_table.md R100, R101). -/

namespace Sys2Proof.Machine

open Sys2Proof.Safety

theorem cutoff_succ (i : Nat) : cutoff (i + 1) = (cutoff i + 1) * 128 := rfl

theorem cutoff_lt_succ (i : Nat) : cutoff i < cutoff (i + 1) := by rw [cutoff_succ]; omega

theorem cutoff_strictMono : StrictMono cutoff := strictMono_nat_of_lt_succ cutoff_lt_succ

@[simp] theorem lowerBound_zero : lowerBound 0 = 0 := rfl
@[simp] theorem lowerBound_succ (i : Nat) : lowerBound (i + 1) = cutoff i := rfl

/-! The tables as lists. -/

theorem table_N (s : State) (h : TablesHold s) :
    s.table .N = [cutoff 0, cutoff 1, cutoff 2, cutoff 3, cutoff 4, cutoff 5, cutoff 6, Config.nativeSentinel] := by
  simp only [State.table, h.1]; rfl

theorem table_X (s : State) (h : TablesHold s) : s.table .X = (List.range 19).map cutoff := by
  simp only [State.table, h.2]; rfl

@[simp] theorem table_length (s : State) (c : Cls) : (s.table c).length = bands c := by
  cases c <;> simp [State.table, bands]

/-- Every entry below the last follows the recurrence in both classes (R20). -/
theorem table_getD (s : State) (h : TablesHold s) (c : Cls) (i : Nat) (hi : i + 1 < bands c) : (s.table c).getD i 0 = cutoff i := by
  cases c with
  | N =>
    rw [table_N s h]
    have : i < 7 := by have : i + 1 < 8 := hi; omega
    interval_cases i <;> rfl
  | X =>
    rw [table_X s h]
    have : i < 19 := by have : i + 1 < 19 := hi; omega
    rw [List.getD_eq_getElem _ _ (by simpa using this)]
    simp

theorem lower_eq_lowerBound (s : State) (h : TablesHold s) (c : Cls) (i : Nat) (hi : i < bands c) :
    lower (s.table c) i = lowerBound i := by
  cases i with
  | zero => rfl
  | succ i => exact table_getD s h c i hi

theorem ceil_eq_ceiling (c : Cls) : ceil c = ceiling c := by cases c <;> rfl

/-- The last entry of a table lies above the class's ceiling (R101). -/
theorem ceil_lt_last (s : State) (h : TablesHold s) (c : Cls) : ceil c < (s.table c).getD (bands c - 1) 0 := by
  cases c with
  | N =>
    rw [table_N s h]
    show ceil .N < Config.nativeSentinel
    simp only [ceil, Config.nativeSentinel]
    omega
  | X =>
    rw [table_X s h]
    show ceil .X < cutoff 18
    decide

/-- The class's ceiling lies below the entry of the recurrence in the place of the table's last entry (R21). -/
theorem ceil_lt_cutoff (c : Cls) : ceil c < cutoff (bands c - 1) := by cases c <;> decide

/-- What `band` answers for a value of the class (R101): a band of the class, whose bounds enclose the value. -/
theorem band_spec (s : State) (h : TablesHold s) (c : Cls) (v : Nat) (hv : v ≤ ceil c) :
    band (s.table c) v < bands c ∧ InBand (band (s.table c) v) v ∧ v < (s.table c).getD (band (s.table c) v) 0 := by
  have hn : 0 < bands c := by cases c <;> decide
  have hlast := ceil_lt_last s h c
  have hlt : band (s.table c) v < (s.table c).length := by
    rw [band, List.findIdx_lt_length]
    refine ⟨(s.table c).getD (bands c - 1) 0, ?_, by simpa using lt_of_le_of_lt hv hlast⟩
    rw [List.getD_eq_getElem _ _ (by rw [table_length]; omega)]
    exact List.getElem_mem _
  have hlt' : band (s.table c) v < bands c := by simpa using hlt
  have htop : v < (s.table c).getD (band (s.table c) v) 0 := by
    rw [List.getD_eq_getElem _ _ hlt]
    exact of_decide_eq_true (List.findIdx_getElem (p := fun e => decide (v < e)) (w := hlt))
  refine ⟨hlt', ⟨?_, ?_⟩, htop⟩
  · rcases Nat.eq_zero_or_pos (band (s.table c) v) with h0 | h0
    · rw [h0]; exact Nat.zero_le _
    · obtain ⟨j, hj⟩ : ∃ j, band (s.table c) v = j + 1 := ⟨band (s.table c) v - 1, by omega⟩
      have hb := List.not_of_lt_findIdx (p := fun e => decide (v < e)) (xs := s.table c) (i := j) (by
        show j < band (s.table c) v
        omega)
      rw [hj, lowerBound_succ, ← table_getD s h c j (by omega)]
      rw [List.getD_eq_getElem _ _ (by rw [table_length]; omega)]
      simpa using hb
  · by_cases he : band (s.table c) v + 1 < bands c
    · rw [table_getD s h c _ he] at htop
      exact htop
    · have : band (s.table c) v = bands c - 1 := by omega
      rw [this]
      exact lt_of_le_of_lt hv (ceil_lt_cutoff c)

/-- A value lies in one band only (R102). -/
theorem inBand_unique (i j v : Nat) (hi : InBand i v) (hj : InBand j v) : i = j := by
  have key : ∀ i j, InBand i v → InBand j v → i < j → False := by
    intro i j hi hj hij
    obtain ⟨k, rfl⟩ : ∃ k, j = k + 1 := ⟨j - 1, by omega⟩
    have h1 : cutoff i ≤ cutoff k := cutoff_strictMono.monotone (by omega)
    have h2 := hi.2
    have h3 : cutoff k ≤ v := hj.1
    omega
  rcases Nat.lt_trichotomy i j with h | h | h
  · exact (key i j hi hj h).elim
  · exact h
  · exact (key j i hj hi h).elim

/-- The band of a value of the class is the band whose bounds enclose it. -/
theorem band_eq_of_inBand (s : State) (h : TablesHold s) (c : Cls) (v i : Nat) (hv : v ≤ ceil c) (hi : InBand i v) :
    band (s.table c) v = i := inBand_unique _ _ v (band_spec s h c v hv).2.1 hi

end Sys2Proof.Machine
end

