-- ==== Sys2Proof/Laws/Codec.lean ====
section
/-! SUPPORT. What each shared operation of the codecs answers: operand checks, the encoder's bytes, the marker scan, the decoders
(spec 30_encoding.md R68 to R70; 41_native_codec.md; 42_extended_codec.md; 43_prefix_length_oracle.md R160). -/

namespace Sys2Proof.Machine

open Sys2Proof.Safety

/-! Operand checks (R120, R181). -/

theorem unsignedOperand_neg (c : Cls) (a : Int) (h : a < 0) : unsignedOperand c a = .raise .outOfRange := if_pos h

theorem unsignedOperand_large (c : Cls) (a : Int) (h : (ceil c : Int) < a) : unsignedOperand c a = .raise .precisionLoss := by
  rw [unsignedOperand, if_neg (by omega), if_pos h]

theorem unsignedOperand_ok (c : Cls) (v : Nat) (h : v ≤ ceil c) : unsignedOperand c v = .ok v := by
  rw [unsignedOperand, if_neg (by omega), if_neg (by omega), Int.toNat_natCast]

/-- Everything the check of an unsigned operand can answer. -/
theorem unsignedOperand_cases (c : Cls) (a : Int) :
    (a < 0 ∧ unsignedOperand c a = .raise .outOfRange) ∨ ((ceil c : Int) < a ∧ unsignedOperand c a = .raise .precisionLoss) ∨
      ∃ v : Nat, a = v ∧ v ≤ ceil c ∧ unsignedOperand c a = .ok v := by
  by_cases h0 : a < 0
  · exact .inl ⟨h0, unsignedOperand_neg c a h0⟩
  · by_cases h1 : (ceil c : Int) < a
    · exact .inr (.inl ⟨h1, unsignedOperand_large c a h1⟩)
    · obtain ⟨v, rfl⟩ := Int.eq_ofNat_of_zero_le (not_lt.mp h0)
      exact .inr (.inr ⟨v, rfl, by omega, unsignedOperand_ok c v (by omega)⟩)

/-- Everything the check of a signed operand can answer. -/
theorem signedOperand_cases (c : Cls) (a : Int) :
    ((a < signedMin c ∨ signedMax c < a) ∧ signedOperand c a = .raise .precisionLoss) ∨
      (signedMin c ≤ a ∧ a ≤ signedMax c ∧ signedOperand c a = .ok a) := by
  by_cases h : a < signedMin c ∨ signedMax c < a
  · exact .inl ⟨h, if_pos h⟩
  · exact .inr ⟨by omega, by omega, if_neg h⟩

/-! The encoder's bytes (R70). -/

theorem wireBytes_length (t : List Nat) (v : Nat) : (wireBytes t v).length = band t v + 1 := by simp [wireBytes]

/-- A band's magnitudes fill `7(i+1)` bits (R102). -/
theorem cutoff_sub_lowerBound (i : Nat) : cutoff i = lowerBound i + 2 ^ (7 * (i + 1)) := by
  induction i with
  | zero => rfl
  | succ i ih =>
    have e : 2 ^ (7 * (i + 1 + 1)) = 128 * 2 ^ (7 * (i + 1)) := by
      rw [show 7 * (i + 1 + 1) = 7 * (i + 1) + 7 by ring, pow_add]; ring
    cases i with
    | zero => rfl
    | succ j =>
      rw [lowerBound_succ, cutoff_succ, e]
      rw [lowerBound_succ] at ih
      have := cutoff_succ j
      omega

theorem wireWord_lt (i m : Nat) (hm : m < 2 ^ (7 * (i + 1))) : wireWord i m < 256 ^ (i + 1) := by
  have e1 : (256 : Nat) ^ (i + 1) = 2 ^ i * 2 ^ (7 * (i + 1) + 1) := by
    rw [show (256 : Nat) = 2 ^ 8 by norm_num, ← pow_mul, ← pow_add]; congr 1; ring
  have hp : 1 ≤ 2 ^ i := Nat.one_le_two_pow
  have e2 : 2 ^ (7 * (i + 1) + 1) = 2 * 2 ^ (7 * (i + 1)) := by rw [pow_succ, Nat.mul_comm]
  rw [wireWord, e1, Nat.sub_mul, Nat.one_mul]
  have : 2 ^ (7 * (i + 1) + 1) ≤ 2 ^ i * 2 ^ (7 * (i + 1) + 1) := Nat.le_mul_of_pos_left _ hp
  omega

/-- The bytes of a value of the class are the encoding of its band and band-local magnitude, in integer form (R70, R120, R140). -/
theorem wireBytes_isEncoding (s : State) (h : TablesHold s) (c : Cls) (v i : Nat) (hv : v ≤ ceil c) (hi : InBand i v) :
    IsEncoding i (v - lowerBound i) (wireBytes (s.table c) v) := by
  have hb := band_eq_of_inBand s h c v i hv hi
  have hlt := (band_spec s h c v hv).1
  rw [hb] at hlt
  have hl := lower_eq_lowerBound s h c i hlt
  refine ⟨by rw [wireBytes_length, hb], ?_⟩
  have hc := cutoff_sub_lowerBound i
  have h1 := hi.1
  have h2 := hi.2
  rw [wireBytes, hb, hl, beNat_bytesBE, Nat.mod_eq_of_lt (wireWord_lt i _ (by omega))]
  rfl

/-- The operand `A` encoded: everything it can answer. -/
theorem encodeA_cases (c : Cls) (s : State) :
    (s.req.a < 0 ∧ encodeA c s = .raise .outOfRange) ∨ ((ceil c : Int) < s.req.a ∧ encodeA c s = .raise .precisionLoss) ∨
      ∃ v : Nat, s.req.a = v ∧ v ≤ ceil c ∧ encodeA c s = .ok (wireBytes (s.table c) v) := by
  unfold encodeA
  obtain ⟨h, e⟩ | ⟨h, e⟩ | ⟨v, h, hv, e⟩ := unsignedOperand_cases c s.req.a
  · exact .inl ⟨h, by rw [e]⟩
  · exact .inr (.inl ⟨h, by rw [e]⟩)
  · exact .inr (.inr ⟨v, h, hv, by rw [e]⟩)

/-! How the encoders end (R120, R121, R140, R141). -/

/-- Everything `ENC.C` can do. -/
theorem encodeToOut_cases (c : Cls) (s : State) :
    (s.req.a < 0 ∧ encodeToOut c s = .next (s.raise .outOfRange)) ∨
    ((ceil c : Int) < s.req.a ∧ encodeToOut c s = .next (s.raise .precisionLoss)) ∨
      ∃ v : Nat, s.req.a = v ∧ v ≤ ceil c ∧ encodeToOut c s = .next (s.respond (Response.okOut (wireBytes (s.table c) v))) := by
  unfold encodeToOut State.finish
  obtain ⟨h, e⟩ | ⟨h, e⟩ | ⟨v, h, hv, e⟩ := encodeA_cases c s
  · exact .inl ⟨h, by rw [e]⟩
  · exact .inr (.inl ⟨h, by rw [e]⟩)
  · exact .inr (.inr ⟨v, h, hv, by rw [e]⟩)

/-- Everything `ENCI.C` can do. -/
theorem encodeToDest_cases (c : Cls) (s : State) :
    (s.destLen < s.req.off + maxLen c ∧ encodeToDest c s = .fault .capacityObligation) ∨
    (s.req.off + maxLen c ≤ s.destLen ∧
      ((s.req.a < 0 ∧ encodeToDest c s = .next (s.raise .outOfRange)) ∨
       ((ceil c : Int) < s.req.a ∧ encodeToDest c s = .next (s.raise .precisionLoss)) ∨
        ∃ v : Nat, s.req.a = v ∧ v ≤ ceil c ∧ encodeToDest c s =
          .next { s with resp := Response.okLen (wireBytes (s.table c) v).length,
                         dest := Memory.writeBytes s.dest s.req.off (wireBytes (s.table c) v) })) := by
  unfold encodeToDest
  by_cases hcap : s.destLen < s.req.off + maxLen c
  · exact .inl ⟨hcap, if_pos hcap⟩
  · refine .inr ⟨by omega, ?_⟩
    rw [if_neg hcap]
    obtain ⟨h, e⟩ | ⟨h, e⟩ | ⟨v, h, hv, e⟩ := encodeA_cases c s
    · exact .inl ⟨h, by rw [e]⟩
    · exact .inr (.inl ⟨h, by rw [e]⟩)
    · exact .inr (.inr ⟨v, h, hv, by rw [e]⟩)

/-- The last byte the encoder can write lies inside the capacity the host must supply (R45, R46). -/
theorem wireBytes_length_le (s : State) (h : TablesHold s) (c : Cls) (v : Nat) (hv : v ≤ ceil c) :
    (wireBytes (s.table c) v).length ≤ maxLen c ∧ (wireBytes (s.table c) v).length ≤ bands c := by
  have h1 := (band_spec s h c v hv).1
  rw [wireBytes_length]
  cases c <;> simp [bands, maxLen] at * <;> omega

/-! The marker scan (R160), on the bits that are still to come. -/

/-- The scan passes over one-bits as long as fewer than 19 are counted. -/
theorem scanMarker_ones (n c : Nat) (bits : List Bool) (h : c + n < 19) :
    scanMarker (List.replicate n true ++ bits) c = scanMarker bits (c + n) := by
  induction n generalizing c with
  | zero => rfl
  | succ n ih =>
    rw [List.replicate_succ, List.cons_append, scanMarker, if_neg (by omega), ih (c + 1) (by omega)]
    congr 1
    omega

/-- A marker of `n` ones and a zero-bit gives its length. -/
theorem scanMarker_marker (n : Nat) (bits : List Bool) (h : n < 19) :
    scanMarker (List.replicate n true ++ false :: bits) 0 = .ok (n + 1) := by
  rw [scanMarker_ones n 0 _ (by omega), Nat.zero_add, scanMarker]

/-- 19 ones raise `PrecisionLoss`. -/
theorem scanMarker_nineteen (bits : List Bool) : scanMarker (List.replicate 19 true ++ bits) 0 = .raise .precisionLoss := by
  rw [show List.replicate 19 true ++ bits = List.replicate 18 true ++ true :: bits from rfl, scanMarker_ones 18 0 _ (by omega),
    scanMarker, if_pos rfl]

/-- Fewer than 19 ones and nothing after them raise `UnexpectedEnd`. -/
theorem scanMarker_unterminated (n : Nat) (h : n < 19) : scanMarker (List.replicate n true) 0 = .raise .unexpectedEnd := by
  have := scanMarker_ones n 0 [] (by omega)
  rw [List.append_nil] at this
  rw [this, scanMarker]

/-- Everything a bit string can begin with: a marker, only ones, or 19 ones. -/
theorem bits_cases (bits : List Bool) :
    (∃ n rest, n < 19 ∧ bits = List.replicate n true ++ false :: rest) ∨ (bits.length < 19 ∧ bits = List.replicate bits.length true) ∨
      ∃ rest, bits = List.replicate 19 true ++ rest := by
  have key : ∀ (bits : List Bool) (k : Nat), (∃ n rest, n < k ∧ bits = List.replicate n true ++ false :: rest) ∨
      (bits.length < k ∧ bits = List.replicate bits.length true) ∨ ∃ rest, bits = List.replicate k true ++ rest := by
    intro bits
    induction bits with
    | nil =>
      intro k
      cases k with
      | zero => exact .inr (.inr ⟨[], rfl⟩)
      | succ k => exact .inr (.inl ⟨by simp, rfl⟩)
    | cons b bits ih =>
      intro k
      cases k with
      | zero => exact .inr (.inr ⟨_, rfl⟩)
      | succ k =>
        cases b with
        | false => exact .inl ⟨0, bits, by omega, rfl⟩
        | true =>
          obtain ⟨n, rest, hn, e⟩ | ⟨hl, e⟩ | ⟨rest, e⟩ := ih k
          · exact .inl ⟨n + 1, rest, by omega, by rw [e]; rfl⟩
          · refine .inr (.inl ⟨by simpa using hl, ?_⟩)
            rw [List.length_cons, List.replicate_succ, ← e]
          · exact .inr (.inr ⟨rest, by rw [e]; rfl⟩)
  exact key bits 19

theorem bytesUsed_eq_scan (b : List Byte) : bytesUsed b = scanMarker (b.flatMap bitsMsb) 0 := by cases b <;> rfl

end Sys2Proof.Machine
end

