-- ==== Sys2Proof/Laws/Marker.lean ====
section
/-! SUPPORT. The bits of a byte sequence: where a marker ends, said once by `bitAt` (spec 00_scope.md R9, 30_encoding.md R72) and once by
the bit list the scan walks over (43_prefix_length_oracle.md R160). -/

namespace Sys2Proof.Machine

open Sys2Proof.Safety

@[simp] theorem bitsMsb_length (b : Byte) : (bitsMsb b).length = 8 := rfl

@[simp] theorem bits_length (b : List Byte) : (b.flatMap bitsMsb).length = 8 * b.length := by
  induction b with
  | nil => rfl
  | cons x b ih => simp [ih]; ring

theorem bitsMsb_getElem? (b : Byte) (j : Nat) (h : j < 8) : (bitsMsb b)[j]? = some (b.getLsbD (7 - j)) := by
  interval_cases j <;> rfl

/-- Bit `j` of the list is bit `j` of the byte sequence. -/
theorem bits_getElem? (b : List Byte) (j : Nat) (h : j < 8 * b.length) : (b.flatMap bitsMsb)[j]? = some (bitAt b j) := by
  induction b generalizing j with
  | nil => simp at h
  | cons x b ih =>
    rw [List.flatMap_cons]
    by_cases hj : j < 8
    · rw [List.getElem?_append_left (by simpa using hj), bitsMsb_getElem? x j hj, bitAt, Nat.div_eq_of_lt hj, Nat.mod_eq_of_lt hj]
      rfl
    · rw [List.length_cons] at h
      rw [List.getElem?_append_right (by simp; omega), bitsMsb_length, ih (j - 8) (by omega), bitAt, bitAt]
      have e1 : j / 8 = (j - 8) / 8 + 1 := by omega
      have e2 : j % 8 = (j - 8) % 8 := by omega
      rw [e1, e2, List.getD_cons_succ]

theorem bits_getElem (b : List Byte) (j : Nat) (h : j < (b.flatMap bitsMsb).length) : (b.flatMap bitsMsb)[j] = bitAt b j := by
  have := bits_getElem? b j (bits_length b ▸ h)
  rw [List.getElem?_eq_getElem h] at this
  simpa using this

theorem onesTo_iff (b : List Byte) (n : Nat) : OnesTo b n ↔ ∃ rest, b.flatMap bitsMsb = List.replicate n true ++ rest := by
  constructor
  · rintro ⟨hn, h⟩
    refine ⟨(b.flatMap bitsMsb).drop n, ?_⟩
    conv_lhs => rw [← List.take_append_drop n (b.flatMap bitsMsb)]
    congr 1
    refine List.ext_getElem (by simp; omega) fun j h1 h2 => ?_
    rw [List.getElem_take, bits_getElem, List.getElem_replicate]
    exact h j (by simpa using h2)
  · rintro ⟨rest, e⟩
    have hl : 8 * b.length = n + rest.length := by rw [← bits_length, e]; simp
    refine ⟨by omega, fun j hj => ?_⟩
    have := bits_getElem? b j (by omega)
    rw [e, List.getElem?_append_left (by simpa using hj), List.getElem?_replicate, if_pos hj] at this
    simpa using this.symm

theorem markerAt_iff (b : List Byte) (i : Nat) :
    MarkerAt b i ↔ ∃ rest, b.flatMap bitsMsb = List.replicate i true ++ false :: rest := by
  constructor
  · rintro ⟨hi, h1, h0⟩
    obtain ⟨rest, e⟩ := (onesTo_iff b i).mp ⟨by omega, h1⟩
    have hb := bits_getElem? b i hi
    rw [e, List.getElem?_append_right (by simp), List.length_replicate, Nat.sub_self, h0] at hb
    cases rest with
    | nil => simp at hb
    | cons x rest => exact ⟨rest, by rw [e]; simpa using hb⟩
  · rintro ⟨rest, e⟩
    have hl : 8 * b.length = i + (rest.length + 1) := by rw [← bits_length, e]; simp
    refine ⟨by omega, ((onesTo_iff b i).mpr ⟨false :: rest, e⟩).2, ?_⟩
    have hb := bits_getElem? b i (by omega)
    rw [e, List.getElem?_append_right (by simp), List.length_replicate, Nat.sub_self] at hb
    simpa using hb.symm

/-- A byte sequence has one marker at most. -/
theorem markerAt_unique (b : List Byte) (i j : Nat) (hi : MarkerAt b i) (hj : MarkerAt b j) : i = j := by
  rcases Nat.lt_trichotomy i j with h | h | h
  · have := hj.2.1 i h; rw [hi.2.2] at this; simp at this
  · exact h
  · have := hi.2.1 j h; rw [hj.2.2] at this; simp at this

/-- Everything `bytesUsed` can answer (R160). -/
theorem bytesUsed_cases (b : List Byte) :
    (∃ i, i ≤ 18 ∧ MarkerAt b i ∧ bytesUsed b = .ok (i + 1)) ∨
    (OnesTo b (8 * b.length) ∧ 8 * b.length < 19 ∧ bytesUsed b = .raise .unexpectedEnd) ∨
    (OnesTo b 19 ∧ bytesUsed b = .raise .precisionLoss) := by
  rw [bytesUsed_eq_scan]
  obtain ⟨n, rest, hn, e⟩ | ⟨hl, e⟩ | ⟨rest, e⟩ := bits_cases (b.flatMap bitsMsb)
  · exact .inl ⟨n, by omega, (markerAt_iff b n).mpr ⟨rest, e⟩, by rw [e, scanMarker_marker n rest hn]⟩
  · refine .inr (.inl ⟨(onesTo_iff b _).mpr ⟨[], ?_⟩, bits_length b ▸ hl, by rw [e, scanMarker_unterminated _ hl]⟩)
    rw [List.append_nil, ← bits_length]; exact e
  · exact .inr (.inr ⟨(onesTo_iff b 19).mpr ⟨rest, e⟩, by rw [e, scanMarker_nineteen]⟩)

/-! `clo8` and the marker in byte 0. -/

theorem leadingOnes_replicate (n : Nat) (bits : List Bool) : leadingOnes (List.replicate n true ++ false :: bits) = n := by
  induction n with
  | zero => rfl
  | succ n ih => rw [List.replicate_succ, List.cons_append, leadingOnes, ih]

/-- What `clo8` counts: either all eight bits, or the ones before a zero-bit of the byte (R9). -/
theorem clo8_cases (b : Byte) :
    (b = 0xFF#8 ∧ clo8 b = 8) ∨ (clo8 b ≤ 7 ∧ ∃ rest, bitsMsb b = List.replicate (clo8 b) true ++ false :: rest) := by
  have key : ∀ b : Byte, (b = 0xFF#8 ∧ clo8 b = 8) ∨ (clo8 b ≤ 7 ∧
      (bitsMsb b).take (clo8 b + 1) = List.replicate (clo8 b) true ++ [false]) := by decide
  refine (key b).imp_right fun ⟨h, e⟩ => ⟨h, (bitsMsb b).drop (clo8 b + 1), ?_⟩
  conv_lhs => rw [← List.take_append_drop (clo8 b + 1) (bitsMsb b), e]
  rw [List.append_assoc, List.singleton_append]

theorem bitsMsb_full : bitsMsb 0xFF#8 = List.replicate 8 true := rfl

/-- The marker of a sequence whose byte 0 is not `0xFF` ends in byte 0 (R72). -/
theorem markerAt_clo8 (b0 : Byte) (rest : List Byte) (h : b0 ≠ 0xFF#8) : MarkerAt (b0 :: rest) (clo8 b0) ∧ clo8 b0 ≤ 7 := by
  obtain ⟨e, _⟩ | ⟨h7, r, e⟩ := clo8_cases b0
  · exact (h e).elim
  · exact ⟨(markerAt_iff _ _).mpr ⟨r ++ rest.flatMap bitsMsb, by rw [List.flatMap_cons, e]; simp⟩, h7⟩

/-- After a byte `0xFF` the marker goes on in the rest (R72). -/
theorem markerAt_full (rest : List Byte) (i : Nat) : MarkerAt (0xFF#8 :: rest) (i + 8) ↔ MarkerAt rest i := by
  rw [markerAt_iff, markerAt_iff, List.flatMap_cons, bitsMsb_full, Nat.add_comm i 8]
  simp only [List.replicate_add, List.append_assoc, List.append_cancel_left_eq]

end Sys2Proof.Machine
end

