-- ==== Sys2Proof/Laws/Memory.lean ====
section
/-! SUPPORT. The destination buffer: a read after a write, what a write leaves alone, and that every operation keeps the canonical
form and stays inside the bytes it is given (spec 20_memory.md R42). -/

namespace Sys2Proof.Machine

/-! One byte. -/

theorem Memory.read_write (m : List Host.Cell) (a : Nat) (b : Byte) (a' : Nat) (h : Memory.wf m) :
    Memory.read (Memory.write m a b) a' = if a' = a then b else Memory.read m a' := by
  have absent : ∀ (m : List Host.Cell) (n : Nat), (∀ x ∈ m, n < x.1) → Memory.read m n = 0#8 := by
    intro m n
    induction m with
    | nil => intro _; rfl
    | cons y m ih =>
      intro hy
      have := hy y (by simp)
      simp only [Memory.read]
      rw [if_neg (by omega)]
      exact ih fun x hx => hy x (by simp [hx])
  induction m with
  | nil =>
    simp only [Memory.write]
    split
    · next hb => simp [Memory.read, hb]
    · simp only [Memory.read, @eq_comm _ a a']
  | cons x m ih =>
    obtain ⟨hp, hz⟩ := h
    have hp' := List.pairwise_cons.mp hp
    have hm : Memory.wf m := ⟨hp'.2, fun y hy => hz y (by simp [hy])⟩
    simp only [Memory.write]
    split
    · next hlt =>
      split
      · next hb =>
        split
        · next ha =>
          subst ha hb
          simp only [Memory.read]
          rw [if_neg (by omega)]
          exact absent m _ fun y hy => lt_trans hlt (hp'.1 y hy)
        · rfl
      · next hb =>
        simp only [Memory.read]
        by_cases ha : a' = a
        · simp [ha]
        · rw [if_neg (by omega), if_neg ha]
    · next hlt =>
      split
      · next hax =>
        split
        · next hb =>
          split
          · next ha => subst ha hb; exact absent m _ fun y hy => by have := hp'.1 y hy; omega
          · next ha => simp only [Memory.read]; rw [if_neg (by omega)]
        · next hb =>
          simp only [Memory.read]
          by_cases ha : a' = a
          · simp [ha]
          · rw [if_neg (by omega), if_neg ha, if_neg (by omega)]
      · next hax =>
        simp only [Memory.read, ih hm]
        by_cases hx : x.1 = a'
        · rw [if_pos hx, if_neg (by omega), if_pos hx]
        · rw [if_neg hx, if_neg hx]

/-- A write lists no offset but its own beside those listed before. -/
theorem Memory.mem_write (m : List Host.Cell) (a : Nat) (b : Byte) (x : Host.Cell) (h : x ∈ Memory.write m a b) :
    x = (a, b) ∨ x ∈ m := by
  induction m with
  | nil =>
    simp only [Memory.write] at h
    split at h <;> simp_all
  | cons y m ih =>
    simp only [Memory.write] at h
    split at h
    · split at h <;> simp_all
    · split at h
      · split at h
        · exact .inr (by simp [h])
        · simp only [List.mem_cons] at h
          rcases h with h | h
          · exact .inl h
          · exact .inr (by simp [h])
      · simp only [List.mem_cons] at h
        rcases h with h | h
        · exact .inr (by simp [h])
        · exact (ih h).imp_right (by simp +contextual)

theorem Memory.write_wf (m : List Host.Cell) (a : Nat) (b : Byte) (h : Memory.wf m) : Memory.wf (Memory.write m a b) := by
  induction m with
  | nil =>
    by_cases hb : b = 0#8 <;> simp [Memory.write, Memory.wf, hb]
  | cons x m ih =>
    obtain ⟨hp, hz⟩ := h
    have hp' := List.pairwise_cons.mp hp
    have hm : Memory.wf m := ⟨hp'.2, fun y hy => hz y (by simp [hy])⟩
    simp only [Memory.write]
    split
    · next hlt =>
      split
      · exact ⟨hp, hz⟩
      · next hb =>
        refine ⟨List.pairwise_cons.mpr ⟨?_, hp⟩, ?_⟩
        · intro y hy
          rcases List.mem_cons.mp hy with rfl | hy
          · exact hlt
          · exact lt_trans hlt (hp'.1 y hy)
        · intro y hy
          rcases List.mem_cons.mp hy with rfl | hy
          · exact hb
          · exact hz y hy
    · split
      · next hax =>
        split
        · exact hm
        · next hb =>
          refine ⟨List.pairwise_cons.mpr ⟨fun y hy => by have := hp'.1 y hy; simpa [hax] using this, hm.1⟩, ?_⟩
          intro y hy
          rcases List.mem_cons.mp hy with rfl | hy
          · exact hb
          · exact hm.2 y hy
      · next hlt hax =>
        refine ⟨List.pairwise_cons.mpr ⟨?_, (ih hm).1⟩, ?_⟩
        · intro y hy
          rcases Memory.mem_write m a b y hy with rfl | hy
          · simp only; omega
          · exact hp'.1 y hy
        · intro y hy
          rcases List.mem_cons.mp hy with rfl | hy
          · exact hz _ (by simp)
          · exact (ih hm).2 y hy

/-! `MemWrite` (R42). -/

theorem Memory.writeBytes_wf (m : List Host.Cell) (a : Nat) (bs : List Byte) (h : Memory.wf m) :
    Memory.wf (Memory.writeBytes m a bs) := by
  induction bs generalizing m a with
  | nil => exact h
  | cons b bs ih => exact ih _ _ (Memory.write_wf m a b h)

/-- "sets `DEST[addr + k] <- v[k]` for `0 ≤ k < n` and changes no other byte" (R42). -/
theorem Memory.read_writeBytes (m : List Host.Cell) (a : Nat) (bs : List Byte) (a' : Nat) (h : Memory.wf m) :
    Memory.read (Memory.writeBytes m a bs) a' = if a ≤ a' ∧ a' < a + bs.length then bs.getD (a' - a) 0#8 else Memory.read m a' := by
  induction bs generalizing m a with
  | nil => simp only [Memory.writeBytes, List.length_nil]; rw [if_neg (by omega)]
  | cons b bs ih =>
    simp only [Memory.writeBytes, List.length_cons]
    rw [ih _ _ (Memory.write_wf m a b h), Memory.read_write m a b a' h]
    by_cases h1 : a' = a
    · subst h1
      rw [if_neg (by omega), if_pos rfl, if_pos (by omega)]
      simp
    · by_cases h2 : a + 1 ≤ a' ∧ a' < a + 1 + bs.length
      · rw [if_pos h2, if_pos (by omega)]
        have : a' - a = (a' - (a + 1)) + 1 := by omega
        rw [this, List.getD_cons_succ]
      · rw [if_neg h2, if_neg h1, if_neg (by omega)]

/-- A `MemWrite` inside a buffer of `n` bytes lists nothing outside it. -/
theorem Memory.writeBytes_inside (m : List Host.Cell) (a : Nat) (bs : List Byte) (n : Nat) (hm : ∀ x ∈ m, x.1 < n)
    (hn : a + bs.length ≤ n) : ∀ x ∈ Memory.writeBytes m a bs, x.1 < n := by
  induction bs generalizing m a with
  | nil => exact hm
  | cons b bs ih =>
    simp only [List.length_cons] at hn
    refine ih _ _ (fun x hx => ?_) (by omega)
    rcases Memory.mem_write m a b x hx with rfl | hx
    · simp only; omega
    · exact hm x hx

/-! Reading a range. -/

@[simp] theorem Memory.readBytes_length (m : List Host.Cell) (a n : Nat) : (Memory.readBytes m a n).length = n := by
  induction n generalizing a with
  | zero => rfl
  | succ n ih => simp [Memory.readBytes, ih]

theorem Memory.readBytes_getD (m : List Host.Cell) (a n k : Nat) (h : k < n) :
    (Memory.readBytes m a n).getD k 0#8 = Memory.read m (a + k) := by
  induction n generalizing a k with
  | zero => omega
  | succ n ih =>
    cases k with
    | zero => rfl
    | succ k =>
      simp only [Memory.readBytes, List.getD_cons_succ]
      rw [ih (a + 1) k (by omega)]
      congr 1
      omega

end Sys2Proof.Machine
end

