-- ==== Sys2Proof/Laws/State.lean ====
section
/-! SUPPORT. The updates of the state, field by field: what each changes and what it leaves. -/

namespace Sys2Proof.Machine

/-! `State.respond`: only the response. -/

@[simp] theorem State.respond_tabN (s : State) (p : Response) : (s.respond p).tabN = s.tabN := rfl
@[simp] theorem State.respond_tabX (s : State) (p : Response) : (s.respond p).tabX = s.tabX := rfl
@[simp] theorem State.respond_req (s : State) (p : Response) : (s.respond p).req = s.req := rfl
@[simp] theorem State.respond_resp (s : State) (p : Response) : (s.respond p).resp = p := rfl
@[simp] theorem State.respond_destLen (s : State) (p : Response) : (s.respond p).destLen = s.destLen := rfl
@[simp] theorem State.respond_dest (s : State) (p : Response) : (s.respond p).dest = s.dest := rfl
@[simp] theorem State.respond_script (s : State) (p : Response) : (s.respond p).script = s.script := rfl
@[simp] theorem State.respond_respond (s : State) (p q : Response) : (s.respond p).respond q = s.respond q := rfl

/-! `State.raise`: only the response, which then holds `STATUS` alone (R203). -/

theorem State.raise_eq_respond (s : State) (e : Status) : s.raise e = s.respond (Response.raised e) := rfl
@[simp] theorem State.raise_tabN (s : State) (e : Status) : (s.raise e).tabN = s.tabN := rfl
@[simp] theorem State.raise_tabX (s : State) (e : Status) : (s.raise e).tabX = s.tabX := rfl
@[simp] theorem State.raise_req (s : State) (e : Status) : (s.raise e).req = s.req := rfl
@[simp] theorem State.raise_resp (s : State) (e : Status) : (s.raise e).resp = Response.raised e := rfl
@[simp] theorem State.raise_destLen (s : State) (e : Status) : (s.raise e).destLen = s.destLen := rfl
@[simp] theorem State.raise_dest (s : State) (e : Status) : (s.raise e).dest = s.dest := rfl
@[simp] theorem State.raise_script (s : State) (e : Status) : (s.raise e).script = s.script := rfl

/-! The fields of each kind of response (R24). -/

@[simp] theorem Response.raised_status (e : Status) : (Response.raised e).status = some e.code := rfl
@[simp] theorem Response.raised_len (e : Status) : (Response.raised e).len = none := rfl
@[simp] theorem Response.raised_r (e : Status) : (Response.raised e).r = none := rfl
@[simp] theorem Response.raised_flag (e : Status) : (Response.raised e).flag = none := rfl
@[simp] theorem Response.okLen_status (l : Nat) : (Response.okLen l).status = some 0#3 := rfl
@[simp] theorem Response.okLen_len (l : Nat) : (Response.okLen l).len = some (BitVec.ofNat 5 l) := rfl
@[simp] theorem Response.okLen_r (l : Nat) : (Response.okLen l).r = none := rfl
@[simp] theorem Response.okLen_flag (l : Nat) : (Response.okLen l).flag = none := rfl
@[simp] theorem Response.okOut_status (bs : List Byte) : (Response.okOut bs).status = some 0#3 := rfl
@[simp] theorem Response.okOut_len (bs : List Byte) : (Response.okOut bs).len = some (BitVec.ofNat 5 bs.length) := rfl
@[simp] theorem Response.okOut_r (bs : List Byte) : (Response.okOut bs).r = none := rfl
@[simp] theorem Response.okOut_flag (bs : List Byte) : (Response.okOut bs).flag = none := rfl
@[simp] theorem Response.okR_status (v : Int) : (Response.okR v).status = some 0#3 := rfl
@[simp] theorem Response.okR_len (v : Int) : (Response.okR v).len = none := rfl
@[simp] theorem Response.okR_r (v : Int) : (Response.okR v).r = some v := rfl
@[simp] theorem Response.okR_flag (v : Int) : (Response.okR v).flag = none := rfl
@[simp] theorem Response.okFlag_status (f : Bool) : (Response.okFlag f).status = some 0#3 := rfl
@[simp] theorem Response.okFlag_len (f : Bool) : (Response.okFlag f).len = none := rfl
@[simp] theorem Response.okFlag_r (f : Bool) : (Response.okFlag f).r = none := rfl
@[simp] theorem Response.okFlag_flag (f : Bool) : (Response.okFlag f).flag = some f := rfl

@[simp] theorem outLanes_get (bs : List Byte) (k : Fin 19) : (outLanes bs).get k = bs[k.val]? := by
  simp [outLanes, Vector.get_eq_getElem]

@[simp] theorem noLane_get (k : Fin 19) : (Vector.replicate 19 (none : Option Byte)).get k = none := by
  simp [Vector.get_eq_getElem]

/-! `handOver`: only the buffer (R30). -/

@[simp] theorem handOver_tabN (bs : List Byte) (s : State) : (handOver bs s).tabN = s.tabN := rfl
@[simp] theorem handOver_tabX (bs : List Byte) (s : State) : (handOver bs s).tabX = s.tabX := rfl
@[simp] theorem handOver_req (bs : List Byte) (s : State) : (handOver bs s).req = s.req := rfl
@[simp] theorem handOver_resp (bs : List Byte) (s : State) : (handOver bs s).resp = s.resp := rfl
@[simp] theorem handOver_destLen (bs : List Byte) (s : State) : (handOver bs s).destLen = bs.length := rfl
@[simp] theorem handOver_script (bs : List Byte) (s : State) : (handOver bs s).script = s.script := rfl

/-! `queueIfOk`: only the script (R76). -/

/-- Everything `queueIfOk` can do: keep the state, or put one line before the script. -/
theorem queueIfOk_eq (l : Option Line) (s : State) :
    queueIfOk l s = s ∨ ∃ l', l = some l' ∧ s.resp.isOk = true ∧ queueIfOk l s = { s with script := .line l' :: s.script } := by
  cases l with
  | none => exact .inl rfl
  | some l' =>
    by_cases h : s.resp.isOk = true
    · exact .inr ⟨l', rfl, h, by simp [queueIfOk, h]⟩
    · exact .inl (by simp [queueIfOk, h])

@[simp] theorem queueIfOk_none (s : State) : queueIfOk none s = s := rfl

@[simp] theorem queueIfOk_tabN (l : Option Line) (s : State) : (queueIfOk l s).tabN = s.tabN := by
  obtain h | ⟨_, _, _, h⟩ := queueIfOk_eq l s <;> rw [h]

@[simp] theorem queueIfOk_tabX (l : Option Line) (s : State) : (queueIfOk l s).tabX = s.tabX := by
  obtain h | ⟨_, _, _, h⟩ := queueIfOk_eq l s <;> rw [h]

@[simp] theorem queueIfOk_req (l : Option Line) (s : State) : (queueIfOk l s).req = s.req := by
  obtain h | ⟨_, _, _, h⟩ := queueIfOk_eq l s <;> rw [h]

@[simp] theorem queueIfOk_resp (l : Option Line) (s : State) : (queueIfOk l s).resp = s.resp := by
  obtain h | ⟨_, _, _, h⟩ := queueIfOk_eq l s <;> rw [h]

@[simp] theorem queueIfOk_destLen (l : Option Line) (s : State) : (queueIfOk l s).destLen = s.destLen := by
  obtain h | ⟨_, _, _, h⟩ := queueIfOk_eq l s <;> rw [h]

@[simp] theorem queueIfOk_dest (l : Option Line) (s : State) : (queueIfOk l s).dest = s.dest := by
  obtain h | ⟨_, _, _, h⟩ := queueIfOk_eq l s <;> rw [h]

@[simp] theorem andThen_none (o : Host.Outcome State Fault Refusal) : andThen none o = o := by cases o <;> rfl

end Sys2Proof.Machine
end

