-- ==== Sys2Proof/Laws/Exec.lean ====
section
/-! SUPPORT. Everything a transaction can do, once: which responses a computation ends in, and that no command changes anything but the
response and, for `ENCI.*`, the bytes it stores (spec 20_memory.md R46, R47; 60_exceptions.md R203). -/

namespace Sys2Proof.Machine

open Sys2Proof.Safety

/-- The response a computation ends in. -/
def Res.response {α : Type} (r : Res α) (ofValue : α → Response) : Response :=
  match r with
  | .ok v => ofValue v
  | .raise e => Response.raised e

@[simp] theorem Res.response_ok {α : Type} (v : α) (f : α → Response) : (Res.ok v).response f = f v := rfl
@[simp] theorem Res.response_raise {α : Type} (e : Status) (f : α → Response) :
    (Res.raise e : Res α).response f = Response.raised e := rfl

/-- `finish` always answers, with a response and nothing else changed. -/
theorem State.finish_eq {α : Type} (s : State) (r : Res α) (f : α → Response) : s.finish r f = .next (s.respond (r.response f)) := by
  cases r <;> rfl

/-! The meanings, as the response each ends in. -/

theorem execEncN_eq (s : State) : execEncN s = .next (s.respond ((encodeA .N s).response Response.okOut)) := State.finish_eq ..
theorem execEncX_eq (s : State) : execEncX s = .next (s.respond ((encodeA .X s).response Response.okOut)) := State.finish_eq ..
theorem execDecN_eq (s : State) :
    execDecN s = .next (s.respond ((decodeNativeBytes (s.table .N) s.req.inp).response fun v => Response.okR v)) := State.finish_eq ..
theorem execDecX_eq (s : State) :
    execDecX s = .next (s.respond ((decodeExtendedBytes (s.table .X) s.req.inp).response fun v => Response.okR v)) := State.finish_eq ..
theorem execBused_eq (s : State) : execBused s = .next (s.respond ((bytesUsed s.req.inp).response Response.okLen)) := State.finish_eq ..
theorem execZzeN_eq (s : State) :
    execZzeN s = .next (s.respond ((signedOperand .N s.req.a).response fun v => Response.okR (zz v))) := State.finish_eq ..
theorem execZzeX_eq (s : State) :
    execZzeX s = .next (s.respond ((signedOperand .X s.req.a).response fun v => Response.okR (zz v))) := State.finish_eq ..
theorem execZzdN_eq (s : State) :
    execZzdN s = .next (s.respond ((unsignedOperand .N s.req.a).response fun u => Response.okR (unzz u))) := State.finish_eq ..
theorem execZzdX_eq (s : State) :
    execZzdX s = .next (s.respond ((unsignedOperand .X s.req.a).response fun u => Response.okR (unzz u))) := State.finish_eq ..

/-- `BTL.C` answers an entry of its table or `BadTableIndex` (R103, R104). -/
theorem tableLookup_cases (c : Cls) (s : State) :
    ((s.req.a < 0 ∨ (bands c : Int) ≤ s.req.a) ∧ tableLookup c s = .next (s.raise .badTableIndex)) ∨
      ∃ i : Nat, s.req.a = i ∧ i < bands c ∧ tableLookup c s = .next (s.respond (Response.okR ((s.table c).getD i 0 : Nat))) := by
  unfold tableLookup
  by_cases h : s.req.a < 0 ∨ ((s.table c).length : Int) ≤ s.req.a
  · exact .inl ⟨by simpa using h, if_pos h⟩
  · rw [table_length] at h
    obtain ⟨i, hi⟩ := Int.eq_ofNat_of_zero_le (a := s.req.a) (by omega)
    exact .inr ⟨i, hi, by omega, by rw [table_length, if_neg h, hi]; rfl⟩

/-- `ENCI.C` in the shape of the other commands. -/
theorem encodeToDest_next (c : Cls) (s t : State) (h : encodeToDest c s = .next t) :
    s.req.off + maxLen c ≤ s.destLen ∧
      ((∃ e, encodeA c s = .raise e ∧ t = s.raise e) ∨
        ∃ bs, encodeA c s = .ok bs ∧ t = { s with resp := Response.okLen bs.length, dest := Memory.writeBytes s.dest s.req.off bs }) := by
  unfold encodeToDest at h
  split at h
  · cases h
  · next hcap =>
    refine ⟨by omega, ?_⟩
    split at h
    · next e he => exact .inl ⟨e, he, by simpa using h.symm⟩
    · next bs hbs => exact .inr ⟨bs, hbs, by simpa using h.symm⟩

/-- Everything a command can do when it answers: it leaves a response and nothing else, but for `ENCI.C`, which on success also stores
the bytes `ENC.C` would give at `OFF`, in a buffer with the capacity the spec asks for. -/
theorem exec_next_cases (i : Instr) (s t : State) (h : exec i s = .next t) :
    t = s.respond t.resp ∨
      ∃ c bs, i = enciOf c ∧ s.req.off + maxLen c ≤ s.destLen ∧ encodeA c s = .ok bs ∧
        t = { s with resp := Response.okLen bs.length, dest := Memory.writeBytes s.dest s.req.off bs } := by
  have enci : ∀ c, encodeToDest c s = .next t → i = enciOf c → t = s.respond t.resp ∨
      ∃ c bs, i = enciOf c ∧ s.req.off + maxLen c ≤ s.destLen ∧ encodeA c s = .ok bs ∧
        t = { s with resp := Response.okLen bs.length, dest := Memory.writeBytes s.dest s.req.off bs } := by
    intro c hc hi
    obtain ⟨hcap, ⟨e, _, rfl⟩ | ⟨bs, hbs, rfl⟩⟩ := encodeToDest_next c s t hc
    · exact .inl rfl
    · exact .inr ⟨c, bs, hi, hcap, hbs, rfl⟩
  have plain : ∀ p, Host.Outcome.next (s.respond p) = Host.Outcome.next t (φ := Fault) (ρ := Refusal) → t = s.respond t.resp := by
    intro p hp
    have : s.respond p = t := by simpa using hp
    rw [← this, State.respond_resp]
  cases i with
  | encN => exact .inl (plain _ ((execEncN_eq s).symm.trans h))
  | enciN => exact enci .N h rfl
  | decN => exact .inl (plain _ ((execDecN_eq s).symm.trans h))
  | bused => exact .inl (plain _ ((execBused_eq s).symm.trans h))
  | bcontN => exact .inl (plain _ h)
  | zzeN => exact .inl (plain _ ((execZzeN_eq s).symm.trans h))
  | zzdN => exact .inl (plain _ ((execZzdN_eq s).symm.trans h))
  | btlN =>
    obtain ⟨_, e⟩ | ⟨_, _, _, e⟩ := tableLookup_cases .N s
    · exact .inl (plain _ (e.symm.trans h))
    · exact .inl (plain _ (e.symm.trans h))
  | encX => exact .inl (plain _ ((execEncX_eq s).symm.trans h))
  | enciX => exact enci .X h rfl
  | decX => exact .inl (plain _ ((execDecX_eq s).symm.trans h))
  | bcontX => exact .inl (plain _ h)
  | zzeX => exact .inl (plain _ ((execZzeX_eq s).symm.trans h))
  | zzdX => exact .inl (plain _ ((execZzdX_eq s).symm.trans h))
  | btlX =>
    obtain ⟨_, e⟩ | ⟨_, _, _, e⟩ := tableLookup_cases .X s
    · exact .inl (plain _ (e.symm.trans h))
    · exact .inl (plain _ (e.symm.trans h))
  | reservedBusedX => exact .inl (plain _ h)
  | reservedRsv rsv x func => exact .inl (plain _ h)

end Sys2Proof.Machine
end

