-- ==== Sys2Proof/Laws/PerInstr.lean ====
section
/-! SUPPORT. What holds of every instruction as syntax (spec 30_encoding.md R60, R63, R64). -/

namespace Sys2Proof.Laws.OneWord

open Sys2Proof Sys2Proof.Machine

/-- An instruction is one byte (R60); it reads `OFF` only beside `A`, and never both `A` and `IN` (R64); its word has a set `RSV` bit just
where it is reserved for that (R63). -/
def Statement (i : Instr) : Prop :=
  (encode i).length = 1 ∧ (readsOff i = true → readsA i = true) ∧ ¬(readsA i = true ∧ readsIn i = true) ∧
  (i.WellFormed → (16 ≤ (encodeCmd i).toNat ↔ ∃ rsv x func, i = .reservedRsv rsv x func))

theorem encN : Statement .encN := ⟨rfl, by decide, by decide, fun _ => ⟨fun h => absurd h (by decide), by simp⟩⟩
theorem enciN : Statement .enciN := ⟨rfl, by decide, by decide, fun _ => ⟨fun h => absurd h (by decide), by simp⟩⟩
theorem decN : Statement .decN := ⟨rfl, by decide, by decide, fun _ => ⟨fun h => absurd h (by decide), by simp⟩⟩
theorem bused : Statement .bused := ⟨rfl, by decide, by decide, fun _ => ⟨fun h => absurd h (by decide), by simp⟩⟩
theorem bcontN : Statement .bcontN := ⟨rfl, by decide, by decide, fun _ => ⟨fun h => absurd h (by decide), by simp⟩⟩
theorem zzeN : Statement .zzeN := ⟨rfl, by decide, by decide, fun _ => ⟨fun h => absurd h (by decide), by simp⟩⟩
theorem zzdN : Statement .zzdN := ⟨rfl, by decide, by decide, fun _ => ⟨fun h => absurd h (by decide), by simp⟩⟩
theorem btlN : Statement .btlN := ⟨rfl, by decide, by decide, fun _ => ⟨fun h => absurd h (by decide), by simp⟩⟩
theorem encX : Statement .encX := ⟨rfl, by decide, by decide, fun _ => ⟨fun h => absurd h (by decide), by simp⟩⟩
theorem enciX : Statement .enciX := ⟨rfl, by decide, by decide, fun _ => ⟨fun h => absurd h (by decide), by simp⟩⟩
theorem decX : Statement .decX := ⟨rfl, by decide, by decide, fun _ => ⟨fun h => absurd h (by decide), by simp⟩⟩
theorem bcontX : Statement .bcontX := ⟨rfl, by decide, by decide, fun _ => ⟨fun h => absurd h (by decide), by simp⟩⟩
theorem zzeX : Statement .zzeX := ⟨rfl, by decide, by decide, fun _ => ⟨fun h => absurd h (by decide), by simp⟩⟩
theorem zzdX : Statement .zzdX := ⟨rfl, by decide, by decide, fun _ => ⟨fun h => absurd h (by decide), by simp⟩⟩
theorem btlX : Statement .btlX := ⟨rfl, by decide, by decide, fun _ => ⟨fun h => absurd h (by decide), by simp⟩⟩
theorem reservedBusedX : Statement .reservedBusedX :=
  ⟨rfl, by decide, by decide, fun _ => ⟨fun h => absurd h (by decide), by simp⟩⟩

theorem reservedRsv (rsv : BitVec 4) (x : BitVec 1) (func : BitVec 3) : Statement (.reservedRsv rsv x func) := by
  refine ⟨rfl, by simp [readsOff], by simp [readsA], fun h => ⟨fun _ => ⟨rsv, x, func, rfl⟩, fun _ => ?_⟩⟩
  have key : ∀ (rsv : BitVec 4) (x : BitVec 1) (func : BitVec 3), rsv ≠ 0#4 → 16 ≤ (cmdWord rsv x func).toNat := by decide
  exact key rsv x func (by simpa [Instr.WellFormed, Instr.wf] using h)

end Sys2Proof.Laws.OneWord
end

