-- ==== Sys2Proof/Laws/Script.lean ====
section
/-! SUPPORT. Everything the host's script can do in a step (spec 30_encoding.md R75, R76; 10_state.md R22). -/

namespace Sys2Proof.Machine

open Sys2Proof.Safety

/-- What presenting a line leaves: a request, and nothing else changed. -/
theorem present_ok (l : Line) (s s' : State) (h : present l s = .ok s') :
    ∃ a bs, presentA (decodeCmd l.cmd) l.a s = .ok a ∧ presentIn (decodeCmd l.cmd) l.inp s = .ok bs ∧
      s' = { s with req := { cmd := l.cmd, a := a, inp := bs, off := presentOff (decodeCmd l.cmd) l.off } } := by
  unfold present at h
  split at h
  · cases h
  · cases h
  · next a bs ha hb => exact ⟨a, bs, ha, hb, by simpa using h.symm⟩

/-- A host action changes the buffer at most. -/
theorem fetchItem_act (item : Item) (s s' : State) (h : fetchItem item s = .act s') :
    s' = s ∨ ∃ bytes, item = .handDest bytes ∧ s' = handOver bytes s := by
  cases item with
  | readField f =>
    simp only [fetchItem] at h
    split at h
    · exact .inl (by simpa using h.symm)
    · cases h
  | handDest bytes => exact .inr ⟨bytes, rfl, by simpa [fetchItem] using h.symm⟩
  | line l => simp only [fetchItem, issueLine] at h; split at h <;> cases h
  | senc c a => simp only [fetchItem, issueLine] at h; split at h <;> cases h
  | senci c a o => simp only [fetchItem, issueLine] at h; split at h <;> cases h
  | sdec c b => simp only [fetchItem, issueLine] at h; split at h <;> cases h

/-- A transaction is issued from a line that the host could present. -/
theorem fetchItem_issue (item : Item) (s s' : State) (i : Instr) (thenLine : Option Line)
    (h : fetchItem item s = .issue i s' thenLine) : ∃ l, present l s = .ok s' ∧ i = decodeCmd l.cmd := by
  have line : ∀ l th, issueLine l th s = .issue i s' thenLine → ∃ l, present l s = .ok s' ∧ i = decodeCmd l.cmd := by
    intro l th h
    unfold issueLine at h
    split at h
    · cases h
    · next s'' hp =>
      injection h with h1 h2 h3
      exact ⟨l, h2 ▸ hp, h1.symm⟩
  cases item with
  | line l => exact line _ _ h
  | senc c a => exact line _ _ h
  | senci c a o => exact line _ _ h
  | sdec c b => exact line _ _ h
  | readField f => simp only [fetchItem] at h; split at h <;> cases h
  | handDest bytes => cases h

/-- Everything a step can do when it answers: nothing (no request), a host action, or a transaction with what the host queues after it;
`rest` is the script without its head. -/
theorem step_cases (s t : State) (h : step s = .next t) :
    (s.script = [] ∧ t = s) ∨
    ∃ item rest, s.script = item :: rest ∧
      (t = { s with script := rest } ∨
       (∃ bytes, item = .handDest bytes ∧ t = handOver bytes { s with script := rest }) ∨
        ∃ l th u, ∃ req : Request, present l { s with script := rest } = .ok { s with script := rest, req := req } ∧
          exec (decodeCmd l.cmd) { s with script := rest, req := req } = .next u ∧ t = queueIfOk th u) := by
  unfold step fetch at h
  cases hs : s.script with
  | nil =>
    rw [hs] at h
    exact .inl ⟨rfl, by simpa using h.symm⟩
  | cons item rest =>
    refine .inr ⟨item, rest, rfl, ?_⟩
    rw [hs] at h
    simp only at h
    cases hf : fetchItem item { s with script := rest } with
    | idle =>
      rw [hf] at h
      cases item <;> simp only [fetchItem, issueLine] at hf <;> (try split at hf) <;> cases hf
    | act s' =>
      rw [hf] at h
      obtain rfl : s' = t := by simpa using h
      exact (fetchItem_act _ _ _ hf).imp_right .inl
    | stop f => rw [hf] at h; cases h
    | issue i s' th =>
      rw [hf] at h
      simp only at h
      obtain ⟨l, hp, rfl⟩ := fetchItem_issue _ _ _ _ _ hf
      obtain ⟨a, bs, _, _, rfl⟩ := present_ok _ _ _ hp
      cases he : exec (decodeCmd l.cmd)
          { s with script := rest, req := { cmd := l.cmd, a := a, inp := bs, off := presentOff (decodeCmd l.cmd) l.off } } with
      | next u =>
        rw [he] at h
        exact .inr (.inr ⟨l, th, u, _, hp, he, by simpa [andThen] using h.symm⟩)
      | fault f => rw [he] at h; cases h
      | refused r => rw [he] at h; cases h

/-! The buffer keeps its canonical form where the host hands one over, and has it at reset (R30, R42). -/

theorem reset_dest_wf : Memory.wf State.reset.dest := ⟨List.Pairwise.nil, fun _ h => nomatch h⟩

theorem handOver_wf (bytes : List Byte) (s : State) : Memory.wf (handOver bytes s).dest := Memory.writeBytes_wf _ _ _ reset_dest_wf

end Sys2Proof.Machine
end

