-- ==== Sys2Proof/Tests/Slice0.lean ====
section
/-! SUPPORT. Tests of the model: expected results are the vectors of spec 95_test_vectors.md and the words of 30_encoding.md R65. Then, for
each statement with hypotheses, a concrete state and operands that meet them. -/

namespace Sys2Proof.Tests

open Sys2Proof.Machine Sys2Proof.Safety

/-- The state after reset with the operands and the buffer length given. -/
def st (a : Int) (inp : List Byte) (off destLen : Nat) : State :=
  { State.reset with req := { cmd := 0#8, a := a, inp := inp, off := off }, destLen := destLen }

/-- The response of an outcome. -/
def respOf : Host.Outcome State Fault Refusal → Option Response
  | .next t => some t.resp
  | .fault _ => none
  | .refused _ => none

/-- `DEST` after an outcome. -/
def destOf : Host.Outcome State Fault Refusal → Option (List Host.Cell)
  | .next t => some t.dest
  | .fault _ => none
  | .refused _ => none

/-- The fault of an outcome. -/
def faultOf : Host.Outcome State Fault Refusal → Option Fault
  | .next _ => none
  | .fault f => some f
  | .refused _ => none

/-! WellFormed refuses a term that says `RSV` is set where it is not (R63). -/

theorem test_ill_formed_refused : Instr.wf (.reservedRsv 0b0000#4 0b0#1 0b010#3) = false := by decide
theorem test_well_formed_accepted : Instr.wf (.reservedRsv 0b0001#4 0b0#1 0b010#3) = true := by decide

/-! Decoding: words of R65 by the table's bit numbering. -/

theorem test_decode_encN : decodeTableWord 8 0b00000000 = some .encN := by decide
theorem test_decode_decX : decodeTableWord 8 0b00001010 = some .decX := by decide
theorem test_decode_bused : decodeTableWord 8 0b00000011 = some .bused := by decide
theorem test_decode_zzdX : decodeTableWord 8 0b00001110 = some .zzdX := by decide
theorem test_decode_btlN : decodeTableWord 8 0b00000111 = some .btlN := by decide
theorem test_decode_reserved_busedX : decodeTableWord 8 0b00001011 = some .reservedBusedX := by decide
theorem test_decode_reserved_rsv : decodeTableWord 8 0b00010010 = some (.reservedRsv 0b0001#4 0b0#1 0b010#3) := by decide
theorem test_decode_nothing : decode [] = .reject .noCommandWord := by decide
theorem test_decode_one_byte : decode [0x02#8, 0x80#8] = .instr .decN [0x80#8] := by decide
theorem test_encode_bcontX : encode .bcontX = [0x0C#8] := by decide

/-! One transaction each, from 95_test_vectors.md sections 1 and 2. -/

theorem test_encN_300 : respOf (exec .encN (st 300 [] 0 0)) = some (encodedOut [0x80#8, 0xAC#8]) := by decide
theorem test_encN_negative : respOf (exec .encN (st (-1) [] 0 0)) = some (failed 1#3) := by decide
theorem test_enciN_16512 :
    destOf (exec .enciN (st 16512 [] 3 12)) = some [(3, 0xC0#8)] ∧ respOf (exec .enciN (st 16512 [] 3 12)) = some (lengthOnly 3) := by
  decide
theorem test_enciN_capacity_first : faultOf (exec .enciN (st (-1) [] 1 9)) = some .capacityObligation := by decide
theorem test_decN_trailing : respOf (exec .decN (st 0 [0x80#8, 0xAC#8, 0x07#8] 0 0)) = some (resultR 300) := by decide
theorem test_decN_above_ceiling :
    respOf (exec .decN (st 0 [0xFE#8, 0x1D#8, 0xFB#8, 0xF7#8, 0xEF#8, 0xDF#8, 0xBF#8, 0x80#8] 0 0)) = some (failed 2#3) := by decide
theorem test_bused_nineteen : respOf (exec .bused (st 0 [0xFF#8, 0xFF#8, 0xDF#8] 0 0)) = some (lengthOnly 19) := by decide
theorem test_bused_too_long : respOf (exec .bused (st 0 [0xFF#8, 0xFF#8, 0xE0#8] 0 0)) = some (failed 2#3) := by decide
theorem test_bcontN_one_short : respOf (exec .bcontN (st 0 (0xFE#8 :: List.replicate 6 0#8) 0 0)) = some (flagOnly false) := by decide
theorem test_bcontN_nine : respOf (exec .bcontN (st 0 (List.replicate 9 0xFF#8) 0 0)) = some (flagOnly true) := by decide
theorem test_zzeN_least : respOf (exec .zzeN (st (-4503599627370496) [] 0 0)) = some (resultR 9007199254740991) := by decide
theorem test_zzeN_below : respOf (exec .zzeN (st (-4503599627370497) [] 0 0)) = some (failed 2#3) := by decide
theorem test_zzdN_odd : respOf (exec .zzdN (st 4294967295 [] 0 0)) = some (resultR (-2147483648)) := by decide
theorem test_zzdN_above : respOf (exec .zzdN (st 9007199254740992 [] 0 0)) = some (failed 2#3) := by decide
theorem test_btlN_six : respOf (exec .btlN (st 6 [] 0 0)) = some (resultR 567382630219904) := by decide
theorem test_btlN_eight : respOf (exec .btlN (st 8 [] 0 0)) = some (failed 5#3) := by decide
theorem test_encX_greatest :
    respOf (exec .encX (st 340282366920938463463374607431768211455 [] 0 0)) =
      some (encodedOut [0xFF#8, 0xFF#8, 0xC0#8, 0xBF#8, 0x7E#8, 0xFD#8, 0xFB#8, 0xF7#8, 0xEF#8, 0xDF#8, 0xBF#8, 0x7E#8, 0xFD#8, 0xFB#8,
        0xF7#8, 0xEF#8, 0xDF#8, 0xBF#8, 0x7F#8]) := by decide
theorem test_encX_too_large : respOf (exec .encX (st 340282366920938463463374607431768211456 [] 0 0)) = some (failed 2#3) := by decide
theorem test_enciX_128 :
    destOf (exec .enciX (st 128 [] 0 19)) = some [(0, 0x80#8)] ∧ respOf (exec .enciX (st 128 [] 0 19)) = some (lengthOnly 2) := by decide
theorem test_enciX_capacity : faultOf (exec .enciX (st 128 [] 1 19)) = some .capacityObligation := by decide
theorem test_decX_2_64 :
    respOf (exec .decX (st 0 [0xFF#8, 0x80#8, 0x7E#8, 0xFD#8, 0xFB#8, 0xF7#8, 0xEF#8, 0xDF#8, 0xBF#8, 0x80#8] 0 0)) =
      some (resultR 18446744073709551616) := by decide
theorem test_decX_short : respOf (exec .decX (st 0 (0xFF#8 :: 0xFF#8 :: 0xC0#8 :: List.replicate 15 0#8) 0 0)) = some (failed 3#3) := by
  decide
theorem test_bcontX_eighteen :
    respOf (exec .bcontX (st 0 (0xFF#8 :: 0xFF#8 :: 0xE0#8 :: List.replicate 15 0#8) 0 0)) = some (flagOnly false) := by decide
theorem test_bcontX_nine : respOf (exec .bcontX (st 0 (0xFF#8 :: List.replicate 8 0#8) 0 0)) = some (flagOnly true) := by decide
theorem test_zzeX_greatest :
    respOf (exec .zzeX (st 170141183460469231731687303715884105727 [] 0 0)) =
      some (resultR 340282366920938463463374607431768211454) := by decide
theorem test_zzeX_above : respOf (exec .zzeX (st 170141183460469231731687303715884105728 [] 0 0)) = some (failed 2#3) := by decide
theorem test_zzdX_greatest :
    respOf (exec .zzdX (st 340282366920938463463374607431768211455 [] 0 0)) =
      some (resultR (-170141183460469231731687303715884105728)) := by decide
theorem test_zzdX_negative : respOf (exec .zzdX (st (-1) [] 0 0)) = some (failed 1#3) := by decide
theorem test_btlX_eighteen :
    respOf (exec .btlX (st 18 [] 0 0)) = some (resultR 10974776180379243672015609386145847197824) := by decide
theorem test_btlX_negative : respOf (exec .btlX (st (-1) [] 0 0)) = some (failed 5#3) := by decide
theorem test_reservedBusedX : respOf (exec .reservedBusedX (st 0 [] 0 0)) = some (failed 4#3) := by decide
theorem test_reservedRsv : respOf (exec (decodeCmd 0xFF#8) (st 0 [] 0 0)) = some (failed 4#3) := by decide

/-! Steps: the first instruction after reset, a script line, a pseudo-instruction, the host's faults (R22, R75, R76, R206). -/

theorem test_fetch_word_decN : respOf (step (State.reset.withFetchWord 8 0x02)) = some (resultR 0) := by decide
theorem test_fetch_word_enciX : respOf (step (State.reset.withFetchWord 8 0x09)) = some (lengthOnly 1) := by decide
theorem test_step_idle : respOf (step State.reset) = some Response.noValue := by decide
theorem test_step_out_without_value :
    faultOf (step { State.reset with script := [.line { cmd := 0x03#8, a := .lit 0, inp := .prevOut, off := 0 }] }) =
      some .readNoValue := by decide
theorem test_step_senci_without_r :
    faultOf (step { State.reset with script := [.senci .X .prevR 0] }) = some .readNoValue := by decide
theorem test_step_sdec_without_out :
    faultOf (step { State.reset with script := [.sdec .N .prevOut] }) = some .readNoValue := by decide
theorem test_step_dest_bytes :
    respOf (step { State.reset with destLen := 2, dest := [(0, 0x80#8), (1, 0xAC#8)]
                                    script := [.line { cmd := 0x02#8, a := .lit 0, inp := .dest 0 1, off := 0 }] }) =
      some (resultR 300) := by decide
theorem test_step_dest_beyond :
    faultOf (step { State.reset with destLen := 2, script := [.line { cmd := 0x02#8, a := .lit 0, inp := .dest 0 2, off := 0 }] }) =
      some .destIndexOutOfRange := by decide
theorem test_step_senc : respOf (step { State.reset with script := [.senc .N (.lit (-3))] }) = some (resultR 5) := by decide

/-! Witnesses: for each statement of `Obligations` with hypotheses, a state and operands that meet them together, clause by clause, at
the ends of each clause's range. -/

theorem st_tables (a : Int) (inp : List Byte) (off destLen : Nat) : TablesHold (st a inp off destLen) := ⟨rfl, rfl⟩

theorem st_wf (a : Int) (inp : List Byte) (off destLen : Nat) : Memory.wf (st a inp off destLen).dest := reset_dest_wf

theorem next_of_resp (o : Host.Outcome State Fault Refusal) (r : Response) (h : respOf o = some r) :
    ∃ t, o = .next t ∧ t.resp = r := by
  cases o with
  | next t => exact ⟨t, rfl, by simpa [respOf] using h⟩
  | fault f => simp [respOf] at h
  | refused r => simp [respOf] at h

/-- The request that was presented. -/
def reqOf : Except Fault State → Option Request
  | .ok s => some s.req
  | .error _ => none

theorem ok_of_req (o : Except Fault State) (r : Request) (h : reqOf o = some r) : ∃ s, o = .ok s ∧ s.req = r := by
  cases o with
  | ok s => exact ⟨s, rfl, by simpa [reqOf] using h⟩
  | error f => simp [reqOf] at h

/-- A state after `BUSED`, with the bytes `0x80, 0xAC` in a buffer of 19 and a line `DEC.N IN=DEST[0..1]` to come. -/
def midSt : State :=
  { st 0 [] 0 19 with
    dest := [(0, 0x80#8), (1, 0xAC#8)]
    resp := lengthOnly 2
    script := [.line { cmd := 0x02#8, a := .lit 0, inp := .dest 0 1, off := 0 }] }

theorem midSt_sound : Sound midSt where
  tables := ⟨rfl, rfl⟩
  dest := ⟨by decide, by decide⟩
  resp :=
    { statusCode := by intro c h; cases h; decide
      valuesOnlyOnOk := fun h => absurd rfl h
      oneResult := fun _ => .inl ⟨rfl, rfl, rfl⟩
      lenRange := by intro l h; cases h; decide
      outLanes := .inl (by decide)
      rRange := by intro v h; cases h }

theorem test_witness_CommandMapDecodes : 0x10 ≤ (0x10#8).toNat ∧ 0x10 ≤ (0xFF#8).toNat := by decide
theorem test_witness_DecodeOfEncodeIsTheInstruction :
    (Instr.reservedRsv 0b0001#4 0b0#1 0b000#3).WellFormed ∧ (Instr.reservedRsv 0b1111#4 0b1#1 0b111#3).WellFormed ∧
      Instr.btlX.WellFormed := by decide
theorem test_witness_EveryWordIsOneInstruction : Instr.encX.WellFormed ∧ encode .encX = [0x08#8] := by decide

theorem test_witness_StepKeepsInvariant : Sound midSt ∧ ∃ t, step midSt = .next t ∧ t.resp = resultR 300 :=
  ⟨midSt_sound, next_of_resp _ _ (by decide)⟩

theorem test_witness_StepRunsDecodedInstruction :
    midSt.script = .line { cmd := 0x02#8, a := .lit 0, inp := .dest 0 1, off := 0 } :: [] ∧ decode [0x02#8] = .instr .decN [] ∧
      ∃ s', present { cmd := 0x02#8, a := .lit 0, inp := .dest 0 1, off := 0 } { midSt with script := [] } = .ok s' ∧
        s'.req = { cmd := 0x02#8, a := 0, inp := [0x80#8, 0xAC#8], off := 0 } :=
  ⟨rfl, by decide, ok_of_req _ _ (by decide)⟩

theorem test_witness_PresentSetsTheRequest :
    (∃ s', present { cmd := 0x01#8, a := .lit 5, inp := .bytes [], off := 3 } midSt = .ok s' ∧
      s'.req = { cmd := 0x01#8, a := 5, inp := [], off := 3 }) ∧
    readsA (decodeCmd 0x01#8) = true ∧ readsOff (decodeCmd 0x01#8) = true ∧
    (∃ s', present { cmd := 0x03#8, a := .prevR, inp := .dest 1 1, off := 3 } midSt = .ok s' ∧
      s'.req = { cmd := 0x03#8, a := 0, inp := [0xAC#8], off := 0 }) ∧
    readsIn (decodeCmd 0x03#8) = true :=
  ⟨ok_of_req _ _ (by decide), by decide, by decide, ok_of_req _ _ (by decide), by decide⟩

theorem test_witness_ReadNoValueFaults :
    (readsA (decodeCmd 0x00#8) = true ∧ midSt.resp.r = none) ∧
    (readsIn (decodeCmd 0x02#8) = true ∧ State.reset.resp.len = none) ∧
    (midSt.resp.len = some 2#5 ∧ (1 : Fin 19).val < (2#5).toNat ∧ midSt.resp.out.get 1 = none) ∧
    midSt.resp.holds .len = true ∧ midSt.resp.holds .r = false ∧
    (({ midSt with script := [.senc .N .prevR] } : State).script = [.senc .N .prevR] ∧
      ({ midSt with script := [.senci .X .prevR 3] } : State).script = [.senci .X .prevR 3] ∧
      ({ midSt with script := [.sdec .N .prevOut] } : State).script = [.sdec .N .prevOut]) := by decide

theorem test_witness_PseudoInstructionExpands :
    (∃ s', present { cmd := encodeCmd (zzeOf .N), a := .lit (-3), inp := .bytes [], off := 0 } (st 0 [] 0 0) = .ok s' ∧
      s'.req = { cmd := 0x05#8, a := -3, inp := [], off := 0 }) ∧
    respOf (exec (decodeCmd (encodeCmd (zzeOf .N))) (st (-3) [] 0 0)) = some (resultR 5) ∧
    (∃ s', present { cmd := encodeCmd (zzeOf .X), a := .lit (2 ^ 127), inp := .bytes [], off := 0 } (st 0 [] 0 0) = .ok s' ∧
      s'.req = { cmd := 0x0D#8, a := 2 ^ 127, inp := [], off := 0 }) ∧
    respOf (exec (decodeCmd (encodeCmd (zzeOf .X))) (st (2 ^ 127) [] 0 0)) = some (failed 2#3) ∧
    (∃ s', present { cmd := encodeCmd (decOf .X), a := .lit 0, inp := .bytes [0x05#8], off := 0 } (st 0 [] 0 0) = .ok s' ∧
      s'.req = { cmd := 0x0A#8, a := 0, inp := [0x05#8], off := 0 }) ∧
    respOf (exec (decodeCmd (encodeCmd (decOf .X))) (st 0 [0x05#8] 0 0)) = some (resultR 5) :=
  ⟨ok_of_req _ _ (by decide), by decide, ok_of_req _ _ (by decide), by decide, ok_of_req _ _ (by decide), by decide⟩

theorem test_witness_TablesFollowTheRecurrence : step State.reset = .next State.reset := rfl

theorem test_witness_LowerBoundOfABand :
    TablesHold State.reset ∧ 0 < bands .N ∧ 7 < bands .N ∧ 0 < bands .X ∧ 18 < bands .X :=
  ⟨⟨rfl, rfl⟩, by decide, by decide, by decide, by decide⟩

theorem test_witness_BandIsTheLeastEntryAbove :
    TablesHold State.reset ∧ 0 ≤ ceiling .N ∧ 2 ^ 53 - 1 ≤ ceiling .N ∧ 2 ^ 128 - 1 ≤ ceiling .X :=
  ⟨⟨rfl, rfl⟩, by decide, by decide, by decide⟩

theorem test_witness_BandLaws :
    TablesHold State.reset ∧ InBand 0 127 ∧ InBand 1 128 ∧ InBand 18 (2 ^ 128 - 1) ∧ 6 < bands .N ∧ 18 < bands .X ∧
      127 ≤ 2 ^ 53 - 1 ∧ 2 ^ 53 - 1 ≤ ceiling .N :=
  ⟨⟨rfl, rfl⟩, by decide, by decide, by decide, by decide, by decide, by decide, by decide⟩

theorem test_witness_BtlNLooksUpTheNativeTable :
    (st (-1) [] 0 0).req.a < 0 ∧ 7 < (st 8 [] 0 0).req.a ∧ (st 0 [] 0 0).req.a = ((0 : Fin 8).val : Int) ∧
      (st 7 [] 0 0).req.a = ((7 : Fin 8).val : Int) ∧ TablesHold (st 7 [] 0 0) :=
  ⟨by decide, by decide, by decide, by decide, st_tables ..⟩

theorem test_witness_BtlXLooksUpTheExtendedTable :
    (st (-1) [] 0 0).req.a < 0 ∧ 18 < (st 19 [] 0 0).req.a ∧ (st 0 [] 0 0).req.a = ((0 : Fin 19).val : Int) ∧
      (st 18 [] 0 0).req.a = ((18 : Fin 19).val : Int) ∧ TablesHold (st 18 [] 0 0) :=
  ⟨by decide, by decide, by decide, by decide, st_tables ..⟩

theorem test_witness_EncNEncodesToOut :
    (st (-1) [] 0 0).req.a < 0 ∧ 2 ^ 53 - 1 < (st (2 ^ 53) [] 0 0).req.a ∧ TablesHold (st (2 ^ 53 - 1) [] 0 0) ∧
      (st (2 ^ 53 - 1) [] 0 0).req.a = ((2 ^ 53 - 1 : Nat) : Int) ∧ (st 0 [] 0 0).req.a = ((0 : Nat) : Int) :=
  ⟨by decide, by decide, st_tables .., by decide, by decide⟩

theorem test_witness_EnciNEncodesToDest :
    (st 0 [] 0 8).destLen < (st 0 [] 0 8).req.off + 9 ∧
    ((st (-1) [] 0 9).req.off + 9 ≤ (st (-1) [] 0 9).destLen ∧ (st (-1) [] 0 9).req.a < 0) ∧
    ((st (2 ^ 53) [] 0 9).req.off + 9 ≤ (st (2 ^ 53) [] 0 9).destLen ∧ 2 ^ 53 - 1 < (st (2 ^ 53) [] 0 9).req.a) ∧
    (TablesHold (st (2 ^ 53 - 1) [] 3 12) ∧ Memory.wf (st (2 ^ 53 - 1) [] 3 12).dest ∧
      (st (2 ^ 53 - 1) [] 3 12).req.off + 9 ≤ (st (2 ^ 53 - 1) [] 3 12).destLen ∧
      (st (2 ^ 53 - 1) [] 3 12).req.a = ((2 ^ 53 - 1 : Nat) : Int)) :=
  ⟨by decide, by decide, by decide, st_tables .., st_wf .., by decide, by decide⟩

theorem test_witness_DecNDecodes :
    (0x7F#8).toNat < 0x80 ∧
    (0x80 ≤ (0x80#8).toNat ∧ [0x80#8].length < clo8 0x80#8 + 1) ∧
    (0x80 ≤ (0xFF#8).toNat ∧ (List.replicate 8 0xFF#8).length < clo8 0xFF#8 + 1) ∧
    9 ≤ (0xFF#8 :: List.replicate 8 0#8).length ∧
    (TablesHold (st 0 [0xFE#8, 0, 0, 0, 0, 0, 0, 0] 0 0) ∧ 0x80 ≤ (0xFE#8).toNat ∧ (0xFE#8) ≠ 0xFF#8 ∧
      clo8 0xFE#8 + 1 ≤ [0xFE#8, 0, 0, 0, 0, 0, 0, 0].length ∧ denoted [0xFE#8, 0, 0, 0, 0, 0, 0, 0] 7 ≤ 2 ^ 53 - 1) :=
  ⟨by decide, by decide, by decide, by decide, st_tables .., by decide, by decide, by decide, by decide⟩

theorem test_witness_NativeRoundTrip :
    TablesHold State.reset ∧ 2 ^ 53 - 1 ≤ 2 ^ 53 - 1 ∧ 16511 < 16512 ∧ 16512 ≤ 2 ^ 53 - 1 :=
  ⟨⟨rfl, rfl⟩, by decide, by decide, by decide⟩

theorem test_witness_EncXEncodesToOut :
    (st (-1) [] 0 0).req.a < 0 ∧ 2 ^ 128 - 1 < (st (2 ^ 128) [] 0 0).req.a ∧ TablesHold (st (2 ^ 128 - 1) [] 0 0) ∧
      (st (2 ^ 128 - 1) [] 0 0).req.a = ((2 ^ 128 - 1 : Nat) : Int) ∧ (st 0 [] 0 0).req.a = ((0 : Nat) : Int) :=
  ⟨by decide, by decide, st_tables .., by decide, by decide⟩

theorem test_witness_EnciXEncodesToDest :
    (st 128 [] 1 19).destLen < (st 128 [] 1 19).req.off + 19 ∧
    ((st (-1) [] 0 19).req.off + 19 ≤ (st (-1) [] 0 19).destLen ∧ (st (-1) [] 0 19).req.a < 0) ∧
    ((st (2 ^ 128) [] 0 19).req.off + 19 ≤ (st (2 ^ 128) [] 0 19).destLen ∧ 2 ^ 128 - 1 < (st (2 ^ 128) [] 0 19).req.a) ∧
    (TablesHold (st (2 ^ 128 - 1) [] 2 21) ∧ Memory.wf (st (2 ^ 128 - 1) [] 2 21).dest ∧
      (st (2 ^ 128 - 1) [] 2 21).req.off + 19 ≤ (st (2 ^ 128 - 1) [] 2 21).destLen ∧
      (st (2 ^ 128 - 1) [] 2 21).req.a = ((2 ^ 128 - 1 : Nat) : Int)) :=
  ⟨by decide, by decide, by decide, st_tables .., st_wf .., by decide, by decide⟩

theorem test_witness_DecXDecodes :
    (OnesTo [] 0 ∧ OnesTo [0xFF#8, 0xFF#8] 16) ∧ OnesTo [0xFF#8, 0xFF#8, 0xE0#8] 19 ∧
    (MarkerAt [0xFF#8, 0xFF#8, 0xC0#8] 18 ∧ [0xFF#8, 0xFF#8, 0xC0#8].length < 18 + 1) ∧
    (MarkerAt [0x05#8] 0 ∧ 0 + 1 ≤ [0x05#8].length ∧ denoted [0x05#8] 0 ≤ 2 ^ 128 - 1) ∧ TablesHold (st 0 [0x05#8] 0 0) :=
  ⟨by decide, by decide, by decide, by decide, st_tables ..⟩

theorem test_witness_ClassesAgreeOnNativeValues :
    TablesHold (st (2 ^ 53 - 1) [] 0 19) ∧ (st (2 ^ 53 - 1) [] 0 19).req.a = ((2 ^ 53 - 1 : Nat) : Int) ∧
      (st (2 ^ 53 - 1) [] 0 19).req.off + 19 ≤ (st (2 ^ 53 - 1) [] 0 19).destLen :=
  ⟨st_tables .., by decide, by decide⟩

theorem test_witness_ExtendedRoundTrip : TablesHold State.reset ∧ 2 ^ 128 - 1 ≤ 2 ^ 128 - 1 := ⟨⟨rfl, rfl⟩, by decide⟩

theorem test_witness_EncodingIsMarkerThenPayload :
    TablesHold (st (2 ^ 128 - 1) [] 0 0) ∧ (st (2 ^ 128 - 1) [] 0 0).req.a = ((2 ^ 128 - 1 : Nat) : Int) ∧
      2 ^ 128 - 1 ≤ ceiling .X ∧ InBand 18 (2 ^ 128 - 1) ∧ InBand 7 (2 ^ 53 - 1) ∧ 2 ^ 53 - 1 ≤ ceiling .N :=
  ⟨st_tables .., by decide, by decide, by decide, by decide, by decide⟩

theorem test_witness_LengthFromLeadingBytes :
    MarkerAt [0x7F#8] 0 ∧ MarkerAt [0xFE#8] 7 ∧ MarkerAt [0xFF#8, 0x7F#8] 8 ∧ MarkerAt [0xFF#8, 0xFE#8] 15 ∧
      MarkerAt [0xFF#8, 0xFF#8, 0x00#8] 16 ∧ MarkerAt [0xFF#8, 0xFF#8, 0xDF#8] 18 := by decide

theorem test_witness_DecoderAcceptsExactlyWellFormed :
    TablesHold (st 0 [0x80#8, 0xAC#8] 0 0) ∧
    (1 < bands .N ∧ MarkerAt [0x80#8, 0xAC#8] 1 ∧ 1 + 1 ≤ [0x80#8, 0xAC#8].length ∧ denoted [0x80#8, 0xAC#8] 1 ≤ ceiling .N) ∧
    ¬ ∃ i, i < bands .X ∧ MarkerAt ([] : List Byte) i ∧ i + 1 ≤ ([] : List Byte).length ∧ denoted [] i ≤ ceiling .X :=
  ⟨st_tables .., by decide, fun ⟨i, _, _, h, _⟩ => absurd h (Nat.not_succ_le_zero i)⟩

theorem test_witness_AcceptedEncodingIsCanonical :
    TablesHold (st 0 [0x80#8, 0xAC#8, 0x07#8] 0 0) ∧
      ∃ t, exec (decOf .N) (st 0 [0x80#8, 0xAC#8, 0x07#8] 0 0) = .next t ∧ t.resp = resultR 300 :=
  ⟨st_tables .., next_of_resp _ _ (by decide)⟩

theorem test_witness_BusedGivesThePrefixLength :
    (OnesTo [] 0 ∧ OnesTo [0xFF#8, 0xFF#8] 16) ∧ OnesTo [0xFF#8, 0xFF#8, 0xFF#8] 19 ∧ MarkerAt [0x00#8] 0 ∧
      MarkerAt [0xFF#8, 0xFF#8, 0xC0#8] 18 := by decide

theorem test_witness_LengthAgreement : TablesHold State.reset ∧ 2 ^ 53 - 1 ≤ ceiling .N ∧ 2 ^ 128 - 1 ≤ ceiling .X :=
  ⟨⟨rfl, rfl⟩, by decide, by decide⟩

theorem test_witness_BcontClosedForm :
    ([0xFF#8, 0xFF#8, 0x80#8, 0x01#8].length = [0xFF#8, 0xFF#8, 0x80#8, 0x02#8].length ∧
      [0xFF#8, 0xFF#8, 0x80#8, 0x01#8].take 3 = [0xFF#8, 0xFF#8, 0x80#8, 0x02#8].take 3) ∧
    ([0x80#8, 0x01#8].length = [0x80#8, 0x02#8].length ∧ [0x80#8, 0x01#8].take 1 = [0x80#8, 0x02#8].take 1) ∧
    ((0xFE#8) ≠ 0xFF#8 ∧ [0x01#8].length = [0x02#8].length) := by decide

theorem test_witness_StreamingIsCorrect : TablesHold State.reset ∧ 2 ^ 53 - 1 ≤ ceiling .N ∧ 2 ^ 128 - 1 ≤ ceiling .X :=
  ⟨⟨rfl, rfl⟩, by decide, by decide⟩

theorem test_witness_InputWindow :
    min (0x05#8 :: List.replicate 20 0x01#8).length 19 = min (0x05#8 :: List.replicate 30 0x01#8).length 19 ∧
      (0x05#8 :: List.replicate 20 0x01#8).take 19 = (0x05#8 :: List.replicate 30 0x01#8).take 19 ∧
      (Instr.bused, 3) ∈ [(Instr.decN, 9), (.decX, 19), (.bused, 3), (.bcontN, 3), (.bcontX, 3)] := by decide

theorem test_witness_ZzeNEncodesSigned :
    (st (-2 ^ 52 - 1) [] 0 0).req.a < -2 ^ 52 ∧ 2 ^ 52 - 1 < (st (2 ^ 52) [] 0 0).req.a ∧
      -2 ^ 52 ≤ (st (-2 ^ 52) [] 0 0).req.a ∧ (st (2 ^ 52 - 1) [] 0 0).req.a ≤ 2 ^ 52 - 1 := by decide

theorem test_witness_ZzdNDecodesSigned :
    (st (-1) [] 0 0).req.a < 0 ∧ 2 ^ 53 - 1 < (st (2 ^ 53) [] 0 0).req.a ∧ 0 ≤ (st 0 [] 0 0).req.a ∧
      (st (2 ^ 53 - 1) [] 0 0).req.a ≤ 2 ^ 53 - 1 := by decide

theorem test_witness_ZzeXEncodesSigned :
    (st (-2 ^ 127 - 1) [] 0 0).req.a < -2 ^ 127 ∧ 2 ^ 127 - 1 < (st (2 ^ 127) [] 0 0).req.a ∧
      -2 ^ 127 ≤ (st (-2 ^ 127) [] 0 0).req.a ∧ (st (2 ^ 127 - 1) [] 0 0).req.a ≤ 2 ^ 127 - 1 := by decide

theorem test_witness_ZzdXDecodesSigned :
    (st (-1) [] 0 0).req.a < 0 ∧ 2 ^ 128 - 1 < (st (2 ^ 128) [] 0 0).req.a ∧ 0 ≤ (st 0 [] 0 0).req.a ∧
      (st (2 ^ 128 - 1) [] 0 0).req.a ≤ 2 ^ 128 - 1 := by decide

theorem test_witness_ZigzagIsABijection :
    (∃ t, exec (zzeOf .X) (withA State.reset (-2)) = .next t ∧ t.resp = resultR 3) ∧
      ∃ t, exec (zzdOf .N) (withA State.reset 3) = .next t ∧ t.resp = resultR (-2) :=
  ⟨next_of_resp _ _ (by decide), next_of_resp _ _ (by decide)⟩

theorem test_witness_ReservedWordsRaiseIllegalCommand : (0x0B#8) = 0x0B#8 ∧ 0x10 ≤ (0x10#8).toNat ∧ 0x10 ≤ (0xFF#8).toNat := by decide

theorem test_witness_StatusCodesProduced :
    (∃ t, exec .bused (st 0 [0x80#8] 0 0) = .next t ∧ t.resp = lengthOnly 2) ∧
      ∃ t, exec .btlN (st 8 [] 0 0) = .next t ∧ t.resp = failed 5#3 :=
  ⟨next_of_resp _ _ (by decide), next_of_resp _ _ (by decide)⟩

theorem test_witness_PrecisionLossExactly : TablesHold (st (2 ^ 53) [] 0 9) := st_tables ..

theorem test_witness_IllegalCommandAndBadTableIndexExactly :
    ∃ t, exec .reservedBusedX (st 0 [] 0 0) = .next t ∧ t.resp = failed 4#3 := next_of_resp _ _ (by decide)

theorem test_witness_ErrorChangesStatusOnly :
    ∃ t, exec .enciN (st (2 ^ 53) [] 0 9) = .next t ∧ t.resp = failed 2#3 := next_of_resp _ _ (by decide)

theorem test_witness_CapacityObligationExactly : exec .enciX (st 0 [] 0 18) = .fault .capacityObligation := rfl

theorem test_witness_ResponseFieldsProduced :
    ∃ t, exec .encX (st 128 [] 0 0) = .next t ∧ t.resp = encodedOut [0x80#8, 0x00#8] := next_of_resp _ _ (by decide)

theorem test_witness_OnlyEnciWritesDest :
    Memory.wf (st 128 [] 0 19).dest ∧ TablesHold (st 128 [] 0 19) ∧
      (∃ t, exec .enciX (st 128 [] 0 19) = .next t ∧ t.resp = lengthOnly 2) ∧
      ∃ t, exec .enciX (st (-1) [] 0 19) = .next t ∧ t.resp = failed 1#3 :=
  ⟨st_wf .., st_tables .., next_of_resp _ _ (by decide), next_of_resp _ _ (by decide)⟩

theorem test_witness_CommandsArePure :
    (st 128 [] 0 19).tabN = (st 128 [0x01#8] 0 19).tabN ∧ (st 128 [] 0 19).destLen = (st 128 [0x01#8] 0 19).destLen ∧
      (st 128 [] 0 19).req.a = (st 128 [0x01#8] 0 19).req.a ∧ (st 128 [] 0 19).req.off = (st 128 [0x01#8] 0 19).req.off ∧
      readsIn .enciX = false ∧ (∃ t, exec .enciX (st 128 [] 0 19) = .next t ∧ t.resp = lengthOnly 2) ∧ Memory.wf (st 128 [] 0 19).dest :=
  ⟨rfl, rfl, rfl, rfl, rfl, next_of_resp _ _ (by decide), st_wf ..⟩

theorem test_witness_CommandsArePure_destLen :
    (st 0 [0x80#8] 0 0).tabX = (st 5 [0x80#8] 4 19).tabX ∧ (st 0 [0x80#8] 0 0).req.inp = (st 5 [0x80#8] 4 19).req.inp ∧
      readsOff .bused = false ∧ readsA .bused = false ∧ (st 0 [0x80#8] 0 0).destLen ≠ (st 5 [0x80#8] 4 19).destLen ∧
      ∃ t, exec .bused (st 0 [0x80#8] 0 0) = .next t ∧ t.resp = lengthOnly 2 :=
  ⟨rfl, rfl, rfl, rfl, by decide, next_of_resp _ _ (by decide)⟩

theorem test_witness_SignedScriptRoundTrip :
    TablesHold State.reset ∧ -(((ceiling .N : Int) + 1) / 2) ≤ -2 ^ 52 ∧ 2 ^ 52 - 1 ≤ ((ceiling .N : Int) + 1) / 2 - 1 ∧
      -(((ceiling .X : Int) + 1) / 2) ≤ -2 ^ 127 ∧ 2 ^ 127 - 1 ≤ ((ceiling .X : Int) + 1) / 2 - 1 :=
  ⟨⟨rfl, rfl⟩, by decide, by decide, by decide, by decide⟩

theorem test_witness_DestScriptRoundTrip :
    Sound midSt ∧ 2 ^ 128 - 1 ≤ ceiling .X ∧ 0 + maxLen .X ≤ midSt.destLen ∧ 10 + maxLen .N ≤ midSt.destLen :=
  ⟨midSt_sound, by decide, by decide, by decide⟩

theorem test_witness_PortsHoldOperandsAndResults :
    TablesHold (st 18 [] 0 0) ∧
      ∃ t, exec .btlX (st 18 [] 0 0) = .next t ∧ t.resp = resultR 10974776180379243672015609386145847197824 :=
  ⟨st_tables .., next_of_resp _ _ (by decide)⟩

end Sys2Proof.Tests
end

/-! SUPPORT. What `R` can hold after a command, and that the ports of every allowed width carry it (spec 00_scope.md R7; 10_state.md R24). -/

namespace Sys2Proof.Machine

open Sys2Proof.Safety

/-! What each computation that answers in `R` gives. -/

theorem decodedValue_le_ceil (c : Cls) (v n : Nat) (h : decodedValue c v = .ok n) : n ≤ ceil c := by
  unfold decodedValue at h
  split at h
  · cases h
  · next hv =>
    cases h
    exact not_lt.mp hv

theorem decodeExtendedBytes_le_ceil (t : List Nat) (b : List Byte) (n : Nat) (h : decodeExtendedBytes t b = .ok n) : n ≤ ceil .X := by
  unfold decodeExtendedBytes at h
  split at h
  · cases h
  · split at h
    · cases h
    · exact decodedValue_le_ceil .X _ n h

theorem decodeNativeLong_le_ceil (t : List Nat) (b0 : Byte) (rest : List Byte) (i n : Nat)
    (h : decodeNativeLong t b0 rest i = .ok n) : n ≤ ceil .N := by
  unfold decodeNativeLong at h
  split at h
  · cases h
  · split at h
    · cases h
    · exact decodedValue_le_ceil .N _ n h

theorem decodeNativeBytes_le_ceil (t : List Nat) (b : List Byte) (n : Nat) (h : decodeNativeBytes t b = .ok n) : n ≤ ceil .N := by
  unfold decodeNativeBytes at h
  split at h
  · cases h
  · split at h
    · next hb =>
      cases h
      exact le_trans hb.le (by decide)
    · exact decodeNativeLong_le_ceil t _ _ _ n h

theorem unsignedOperand_le_ceil (c : Cls) (a : Int) (u : Nat) (h : unsignedOperand c a = .ok u) : u ≤ ceil c := by
  obtain ⟨_, e⟩ | ⟨_, e⟩ | ⟨v, _, hv, e⟩ := unsignedOperand_cases c a
  · cases e.symm.trans h
  · cases e.symm.trans h
  · cases e.symm.trans h
    exact hv

theorem signedOperand_range (c : Cls) (a v : Int) (h : signedOperand c a = .ok v) : signedMin c ≤ v ∧ v ≤ signedMax c := by
  obtain ⟨_, e⟩ | ⟨hmin, hmax, e⟩ := signedOperand_cases c a
  · cases e.symm.trans h
  · cases e.symm.trans h
    exact ⟨hmin, hmax⟩

/-- The signed range of a class has as many values as its unsigned range, half of them negative (R180). -/
theorem signedRange_eq_ceil (c : Cls) : signedMin c = -signedMax c - 1 ∧ (ceil c : Int) = 2 * signedMax c + 1 := by
  cases c <;> decide

/-- Zigzag takes the signed range of a class into its unsigned range (R181, R183). -/
theorem zz_range (c : Cls) (v : Int) (hmin : signedMin c ≤ v) (hmax : v ≤ signedMax c) : 0 ≤ zz v ∧ zz v ≤ ceil c := by
  obtain ⟨hsym, hceil⟩ := signedRange_eq_ceil c
  unfold zz
  split <;> omega

/-- Zigzag back takes the unsigned range of a class into its signed range (R182, R184). -/
theorem unzz_range (c : Cls) (u : Nat) (h : u ≤ ceil c) : signedMin c ≤ unzz u ∧ unzz u ≤ signedMax c := by
  obtain ⟨hsym, hceil⟩ := signedRange_eq_ceil c
  unfold unzz
  split <;> omega

/-! Which commands answer in `R`, and with what. -/

/-- A response with a value in `R` comes from a computation that answered, not from a `raise` (R203). -/
theorem Res.ok_of_response_r {α : Type} (x : Res α) (f : α → Int) (v : Int)
    (h : (x.response fun a => Response.okR (f a)).r = some v) : ∃ a, x = .ok a ∧ v = f a := by
  cases x with
  | ok a => exact ⟨a, rfl, by simpa using h.symm⟩
  | raise e => simp at h

theorem encodeToOut_r (c : Cls) (s t : State) (h : encodeToOut c s = .next t) : t.resp.r = none := by
  obtain ⟨_, e⟩ | ⟨_, e⟩ | ⟨_, _, _, e⟩ := encodeToOut_cases c s <;> cases e.symm.trans h <;> rfl

theorem encodeToDest_r (c : Cls) (s t : State) (h : encodeToDest c s = .next t) : t.resp.r = none := by
  obtain ⟨_, ⟨_, _, rfl⟩ | ⟨_, _, rfl⟩⟩ := encodeToDest_next c s t h <;> rfl

theorem execBused_r (s t : State) (h : execBused s = .next t) : t.resp.r = none := by
  cases (execBused_eq s).symm.trans h
  cases bytesUsed s.req.inp <;> rfl

/-- What `R` may hold, by what it is: a value of a class (`DEC.C`, `ZZE.C`), a signed value of a class (`ZZD.C`), or a table entry
(`BTL.C`). -/
def IsResult (s : State) (v : Int) : Prop :=
  (∃ c, 0 ≤ v ∧ v ≤ ceil c) ∨ (∃ c, signedMin c ≤ v ∧ v ≤ signedMax c) ∨ ∃ c k, k < bands c ∧ v = (s.table c).getD k 0

theorem tableLookup_isResult (c : Cls) (s t : State) (v : Int) (h : tableLookup c s = .next t) (hv : t.resp.r = some v) :
    IsResult s v := by
  obtain ⟨_, e⟩ | ⟨k, _, hk, e⟩ := tableLookup_cases c s
  · cases e.symm.trans h
    simp at hv
  · cases e.symm.trans h
    exact .inr (.inr ⟨c, k, hk, by simpa using hv.symm⟩)

theorem zigzagEncode_isResult (c : Cls) (s t : State) (v : Int) (h : zigzagEncode c s = .next t) (hv : t.resp.r = some v) :
    IsResult s v := by
  cases (State.finish_eq ..).symm.trans h
  obtain ⟨a, ha, rfl⟩ := Res.ok_of_response_r _ zz v hv
  obtain ⟨hmin, hmax⟩ := signedOperand_range c _ a ha
  exact .inl ⟨c, zz_range c a hmin hmax⟩

theorem zigzagDecode_isResult (c : Cls) (s t : State) (v : Int) (h : zigzagDecode c s = .next t) (hv : t.resp.r = some v) :
    IsResult s v := by
  cases (State.finish_eq ..).symm.trans h
  obtain ⟨u, hu, rfl⟩ := Res.ok_of_response_r _ unzz v hv
  exact .inr (.inl ⟨c, unzz_range c u (unsignedOperand_le_ceil c _ u hu)⟩)

/-- A decoder that answers no number above its class's ceiling (R122, R142). -/
theorem finish_decoded_isResult (c : Cls) (x : Res Nat) (s t : State) (v : Int) (hx : ∀ n, x = .ok n → n ≤ ceil c)
    (h : (s.finish x fun n => Response.okR n) = .next t) (hv : t.resp.r = some v) : IsResult s v := by
  cases (State.finish_eq ..).symm.trans h
  obtain ⟨n, hn, rfl⟩ := Res.ok_of_response_r _ Nat.cast v hv
  exact .inl ⟨c, Int.natCast_nonneg n, Int.ofNat_le.mpr (hx n hn)⟩

/-- Everything a command can answer in `R`, whatever the tables hold (R24). -/
theorem exec_isResult (i : Instr) (s t : State) (v : Int) (h : exec i s = .next t) (hv : t.resp.r = some v) : IsResult s v := by
  have noR : t.resp.r = none → IsResult s v := fun hn => nomatch hn.symm.trans hv
  cases i with
  | encN => exact noR (encodeToOut_r .N s t h)
  | enciN => exact noR (encodeToDest_r .N s t h)
  | decN => exact finish_decoded_isResult .N _ s t v (decodeNativeBytes_le_ceil _ _) h hv
  | bused => exact noR (execBused_r s t h)
  | bcontN => cases h; exact noR rfl
  | zzeN => exact zigzagEncode_isResult .N s t v h hv
  | zzdN => exact zigzagDecode_isResult .N s t v h hv
  | btlN => exact tableLookup_isResult .N s t v h hv
  | encX => exact noR (encodeToOut_r .X s t h)
  | enciX => exact noR (encodeToDest_r .X s t h)
  | decX => exact finish_decoded_isResult .X _ s t v (decodeExtendedBytes_le_ceil _ _) h hv
  | bcontX => cases h; exact noR rfl
  | zzeX => exact zigzagEncode_isResult .X s t v h hv
  | zzdX => exact zigzagDecode_isResult .X s t v h hv
  | btlX => exact tableLookup_isResult .X s t v h hv
  | reservedBusedX => cases h; exact noR rfl
  | reservedRsv rsv x func => cases h; exact noR rfl

/-! The range of `R` with the tables of R20. -/

/-- Every table entry but the sentinel is an entry of the recurrence, so at most `T_X[18]` (R20). -/
theorem table_entry_le (s : State) (h : TablesHold s) (c : Cls) (k : Nat) (hk : k < bands c) :
    (s.table c).getD k 0 = Config.nativeSentinel ∨ (s.table c).getD k 0 ≤ cutoff 18 := by
  have hcut : ∀ j, j ≤ 18 → cutoff j ≤ cutoff 18 := fun j hj => cutoff_strictMono.monotone hj
  by_cases hlast : k + 1 < bands c
  · rw [table_getD s h c k hlast]
    exact .inr (hcut k (by cases c <;> simp only [bands] at hk <;> omega))
  · have hk' : k = bands c - 1 := by omega
    subst hk'
    cases c with
    | N => rw [table_N s h]; exact .inl rfl
    | X => rw [table_X s h]; exact .inr le_rfl

theorem ceil_le_cutoff_last (c : Cls) : ceil c ≤ cutoff 18 := by cases c <;> decide

theorem signedRange_inside (c : Cls) : -(2 ^ 127) ≤ signedMin c ∧ signedMax c ≤ cutoff 18 := by cases c <;> decide

/-- `R` lies in `[-2^127, T_X[18]]` (R7), unless it is `NATIVE_SENTINEL`. -/
theorem exec_r_range (i : Instr) (s t : State) (v : Int) (htab : TablesHold s) (h : exec i s = .next t) (hv : t.resp.r = some v) :
    v = Config.nativeSentinel ∨ (-(2 ^ 127) ≤ v ∧ v ≤ cutoff 18) := by
  obtain ⟨c, h0, hc⟩ | ⟨c, hmin, hmax⟩ | ⟨c, k, hk, rfl⟩ := exec_isResult i s t v h hv
  · have := ceil_le_cutoff_last c
    exact .inr ⟨by omega, by omega⟩
  · obtain ⟨hlo, hhi⟩ := signedRange_inside c
    exact .inr ⟨hlo.trans hmin, hmax.trans hhi⟩
  · obtain he | hle := table_entry_le s htab c k hk
    · exact .inl (congrArg Nat.cast he)
    · exact .inr ⟨by omega, Int.ofNat_le.mpr hle⟩

/-! The ports (R7). -/

theorem two_pow_le_aWidth : (2 : Int) ^ 129 ≤ 2 ^ (Config.aWidth - 1) :=
  pow_le_pow_right₀ (by decide) (by unfold Config.aWidth; omega)

theorem two_pow_le_rWidth : (2 : Int) ^ 134 ≤ 2 ^ (Config.rWidth - 1) :=
  pow_le_pow_right₀ (by decide) (by unfold Config.rWidth; omega)

theorem cutoff_last_lt : (cutoff 18 : Int) < 2 ^ 134 := by decide

/-- Settles O56: the range of `R` (`exec_r_range`) and the stated range of `A` lie inside the least widths R7 allows. -/
theorem portsHoldOperandsAndResults : Obligations.PortsHoldOperandsAndResults := by
  refine ⟨fun a hlo hhi => ?_, Nat.le_add_right 19 _, fun i s t v htab h hv => ?_⟩
  · have hw := two_pow_le_aWidth
    constructor <;> omega
  · refine (exec_r_range i s t v htab h hv).imp_right fun ⟨hlo, hhi⟩ => ?_
    have hw := two_pow_le_rWidth
    have hcut := cutoff_last_lt
    constructor <;> omega

end Sys2Proof.Machine

/-! SUPPORT. Which response a command leaves, by the field that carries its result (spec 10_state.md R24, 60_exceptions.md R200, R203). -/

namespace Sys2Proof.Machine

open Sys2Proof.Safety

/-! The codes, and the lanes of `OUT` in each kind of response. -/

theorem Status.code_eq_zero (e : Status) : e.code = 0#3 ↔ e = .ok := by cases e <;> decide

theorem Status.code_le (e : Status) : e.code.toNat ≤ 5 := by cases e <;> decide

@[simp] theorem Response.raised_lane (e : Status) (k : Fin 19) : (Response.raised e).out.get k = none := noLane_get k
@[simp] theorem Response.okLen_lane (l : Nat) (k : Fin 19) : (Response.okLen l).out.get k = none := noLane_get k
@[simp] theorem Response.okOut_lane (bs : List Byte) (k : Fin 19) : (Response.okOut bs).out.get k = bs[k.val]? := outLanes_get bs k
@[simp] theorem Response.okR_lane (v : Int) (k : Fin 19) : (Response.okR v).out.get k = none := noLane_get k
@[simp] theorem Response.okFlag_lane (f : Bool) (k : Fin 19) : (Response.okFlag f).out.get k = none := noLane_get k

/-- A lane of `OUT` holds a value just below the number of bytes (R24). -/
theorem okOut_lane_isSome (bs : List Byte) (k : Fin 19) : ((Response.okOut bs).out.get k).isSome = decide (k.val < bs.length) := by
  rw [Response.okOut_lane, Bool.eq_iff_iff, decide_eq_true_iff, Option.isSome_iff_ne_none, ne_eq, List.getElem?_eq_none_iff, not_le]

/-- A length of at most 19 is in `LEN` as it is. -/
theorem toNat_len (l : Nat) (h : l ≤ 19) : (BitVec.ofNat 5 l).toNat = l := by
  rw [BitVec.toNat_ofNat]
  omega

/-! No computation raises `OK`: an error is one of the codes 1 to 5. -/

theorem unsignedOperand_ne_raise_ok (c : Cls) (a : Int) : unsignedOperand c a ≠ .raise .ok := by
  obtain ⟨_, e⟩ | ⟨_, e⟩ | ⟨_, _, _, e⟩ := unsignedOperand_cases c a <;> rw [e] <;> nofun

theorem signedOperand_ne_raise_ok (c : Cls) (a : Int) : signedOperand c a ≠ .raise .ok := by
  obtain ⟨_, e⟩ | ⟨_, _, e⟩ := signedOperand_cases c a <;> rw [e] <;> nofun

theorem encodeA_ne_raise_ok (c : Cls) (s : State) : encodeA c s ≠ .raise .ok := by
  obtain ⟨_, e⟩ | ⟨_, e⟩ | ⟨_, _, _, e⟩ := encodeA_cases c s <;> rw [e] <;> nofun

theorem bytesUsed_ne_raise_ok (b : List Byte) : bytesUsed b ≠ .raise .ok := by
  obtain ⟨_, _, _, e⟩ | ⟨_, _, e⟩ | ⟨_, e⟩ := bytesUsed_cases b <;> rw [e] <;> nofun

theorem decodedValue_ne_raise_ok (c : Cls) (v : Nat) : decodedValue c v ≠ .raise .ok := by
  unfold decodedValue
  split <;> nofun

theorem decodeExtendedBytes_ne_raise_ok (t : List Nat) (b : List Byte) : decodeExtendedBytes t b ≠ .raise .ok := by
  unfold decodeExtendedBytes
  split
  · next e he =>
    intro h
    exact bytesUsed_ne_raise_ok b (he.trans (by simpa using h))
  · split
    · nofun
    · exact decodedValue_ne_raise_ok .X _

theorem decodeNativeLong_ne_raise_ok (t : List Nat) (b0 : Byte) (rest : List Byte) (i : Nat) :
    decodeNativeLong t b0 rest i ≠ .raise .ok := by
  unfold decodeNativeLong
  split
  · nofun
  · split
    · nofun
    · exact decodedValue_ne_raise_ok .N _

theorem decodeNativeBytes_ne_raise_ok (t : List Nat) (b : List Byte) : decodeNativeBytes t b ≠ .raise .ok := by
  unfold decodeNativeBytes
  split
  · nofun
  · split
    · nofun
    · exact decodeNativeLong_ne_raise_ok t _ _ _

/-! The lengths (R24, R71). -/

theorem encodeA_length (c : Cls) (s : State) (bs : List Byte) (htab : TablesHold s) (h : encodeA c s = .ok bs) :
    1 ≤ bs.length ∧ bs.length ≤ maxLen c := by
  obtain ⟨_, e⟩ | ⟨_, e⟩ | ⟨v, _, hv, e⟩ := encodeA_cases c s
  · cases e.symm.trans h
  · cases e.symm.trans h
  · cases e.symm.trans h
    exact ⟨by simp [wireBytes_length], (wireBytes_length_le s htab c v hv).1⟩

theorem maxLen_le (c : Cls) : maxLen c ≤ 19 := by cases c <;> decide

theorem bytesUsed_range (b : List Byte) (l : Nat) (h : bytesUsed b = .ok l) : 1 ≤ l ∧ l ≤ 19 := by
  obtain ⟨i, hi, _, e⟩ | ⟨_, _, e⟩ | ⟨_, e⟩ := bytesUsed_cases b
  · cases e.symm.trans h
    omega
  · cases e.symm.trans h
  · cases e.symm.trans h

/-! What each command produces: the commands by the field of their result (R24, column "produced by"). -/

/-- `ENC.*`. -/
abbrev outCommands : List Instr := [.encN, .encX]

/-- The commands that produce `LEN` without a lane of `OUT`. -/
abbrev lenCommands : List Instr := [.enciN, .enciX, .bused]

/-- The commands that produce `LEN`, with or without `OUT`. -/
abbrev anyLenCommands : List Instr := [.encN, .enciN, .encX, .enciX, .bused]

/-- `DEC.*`, `ZZE.*`, `ZZD.*`, `BTL.*`. -/
abbrev rCommands : List Instr := [.decN, .decX, .zzeN, .zzeX, .zzdN, .zzdX, .btlN, .btlX]

/-- `BCONT.*`. -/
abbrev flagCommands : List Instr := [.bcontN, .bcontX]

/-- The responses that the command `i` can leave in `s`: an error, or `OK` with the result in the fields R24 names. -/
inductive Produces (i : Instr) (s : State) : Response → Prop
  /-- An error: `STATUS` alone (R203). -/
  | raised (e : Status) (he : e ≠ .ok) : Produces i s (Response.raised e)
  /-- `ENC.*`: `OUT` and `LEN`. -/
  | out (bs : List Byte) (hi : i ∈ outCommands) (hl : TablesHold s → 1 ≤ bs.length ∧ bs.length ≤ 19) :
      Produces i s (Response.okOut bs)
  /-- `ENCI.*` and `BUSED`: `LEN`. -/
  | len (l : Nat) (hi : i ∈ lenCommands) (hl : TablesHold s → 1 ≤ l ∧ l ≤ 19) : Produces i s (Response.okLen l)
  /-- `DEC.*`, `ZZE.*`, `ZZD.*`, `BTL.*`: `R`. -/
  | r (v : Int) (hi : i ∈ rCommands) : Produces i s (Response.okR v)
  /-- `BCONT.*`: `FLAG`. -/
  | flag (f : Bool) (hi : i ∈ flagCommands) : Produces i s (Response.okFlag f)

theorem finish_produces {α : Type} {i : Instr} {s t : State} {x : Res α} {f : α → Response} (hx : x ≠ .raise .ok)
    (hf : ∀ v, x = .ok v → Produces i s (f v)) (h : s.finish x f = .next t) : Produces i s t.resp := by
  cases (State.finish_eq s x f).symm.trans h
  cases x with
  | ok v => exact hf v rfl
  | raise e => exact .raised e fun he => hx (he ▸ rfl)

theorem encodeToOut_produces (c : Cls) (i : Instr) (s t : State) (hi : i ∈ outCommands) (h : encodeToOut c s = .next t) :
    Produces i s t.resp :=
  finish_produces (encodeA_ne_raise_ok c s) (fun bs hbs => .out bs hi fun htab =>
    (encodeA_length c s bs htab hbs).imp_right fun hle => hle.trans (maxLen_le c)) h

theorem encodeToDest_produces (c : Cls) (i : Instr) (s t : State) (hi : i ∈ lenCommands)
    (h : encodeToDest c s = .next t) : Produces i s t.resp := by
  obtain ⟨_, ⟨e, he, rfl⟩ | ⟨bs, hbs, rfl⟩⟩ := encodeToDest_next c s t h
  · exact .raised e fun hok => encodeA_ne_raise_ok c s (hok ▸ he)
  · exact .len bs.length hi fun htab => (encodeA_length c s bs htab hbs).imp_right fun hle => hle.trans (maxLen_le c)

theorem tableLookup_produces (c : Cls) (i : Instr) (s t : State)
    (hi : i ∈ rCommands) (h : tableLookup c s = .next t) :
    Produces i s t.resp := by
  obtain ⟨_, e⟩ | ⟨k, _, _, e⟩ := tableLookup_cases c s
  · cases e.symm.trans h
    exact .raised .badTableIndex nofun
  · cases e.symm.trans h
    exact .r _ hi

/-- Every command that answers leaves one of the responses it can produce. -/
theorem exec_produces (i : Instr) (s t : State) (h : exec i s = .next t) : Produces i s t.resp := by
  cases i with
  | encN => exact encodeToOut_produces .N _ s t (by decide) h
  | enciN => exact encodeToDest_produces .N _ s t (by decide) h
  | decN => exact finish_produces (decodeNativeBytes_ne_raise_ok _ _) (fun v _ => .r v (by decide)) h
  | bused =>
    exact finish_produces (bytesUsed_ne_raise_ok _) (fun l hl => .len l (by decide) fun _ => bytesUsed_range _ l hl) h
  | bcontN => cases h; exact .flag _ (by decide)
  | zzeN => exact finish_produces (signedOperand_ne_raise_ok _ _) (fun v _ => .r (zz v) (by decide)) h
  | zzdN => exact finish_produces (unsignedOperand_ne_raise_ok _ _) (fun u _ => .r (unzz u) (by decide)) h
  | btlN => exact tableLookup_produces .N _ s t (by decide) h
  | encX => exact encodeToOut_produces .X _ s t (by decide) h
  | enciX => exact encodeToDest_produces .X _ s t (by decide) h
  | decX => exact finish_produces (decodeExtendedBytes_ne_raise_ok _ _) (fun v _ => .r v (by decide)) h
  | bcontX => cases h; exact .flag _ (by decide)
  | zzeX => exact finish_produces (signedOperand_ne_raise_ok _ _) (fun v _ => .r (zz v) (by decide)) h
  | zzdX => exact finish_produces (unsignedOperand_ne_raise_ok _ _) (fun u _ => .r (unzz u) (by decide)) h
  | btlX => exact tableLookup_produces .X _ s t (by decide) h
  | reservedBusedX => cases h; exact .raised .illegalCommand nofun
  | reservedRsv rsv x func => cases h; exact .raised .illegalCommand nofun

/-- `STATUS` holds one of the codes 0 to 5 (R200). -/
theorem Produces.status_le {i : Instr} {s : State} {p : Response} (h : Produces i s p) : ∃ c, p.status = some c ∧ c.toNat ≤ 5 := by
  cases h with
  | raised e _ => exact ⟨e.code, rfl, e.code_le⟩
  | out | len | r | flag => exact ⟨0#3, rfl, by decide⟩

/-- `OK` is left exactly with a result (R28, R200). -/
theorem Produces.ok_iff_result {i : Instr} {s : State} {p : Response} (h : Produces i s p) :
    p.status = some 0#3 ↔ p.len.isSome ∨ p.r.isSome ∨ p.flag.isSome := by
  cases h with
  | raised e he => simp [Status.code_eq_zero, he]
  | out | len | r | flag => simp

/-- Settles O44: by the response each command produces. -/
theorem statusCodesProduced : Obligations.StatusCodesProduced := fun i s t h =>
  ⟨(exec_produces i s t h).status_le, (exec_produces i s t h).ok_iff_result⟩

/-! Which fields hold values on `OK` (R24), and that nothing is sticky (R27): no command stands in two of the lists. -/

theorem not_mem_of_mem_anyLenCommands : ∀ i ∈ anyLenCommands, i ∉ rCommands ∧ i ∉ flagCommands := by decide

theorem not_mem_of_mem_rCommands : ∀ i ∈ rCommands, i ∉ anyLenCommands ∧ i ∉ flagCommands := by decide

theorem not_mem_of_mem_flagCommands : ∀ i ∈ flagCommands, i ∉ anyLenCommands ∧ i ∉ rCommands := by decide

theorem outCommands_subset : outCommands ⊆ anyLenCommands := by decide

theorem lenCommands_subset : lenCommands ⊆ anyLenCommands := by decide

/-- On `OK`, the fields that hold values are those R24 names for the command. -/
theorem Produces.fields_of_ok {i : Instr} {s : State} {p : Response} (h : Produces i s p) (hok : p.status = some 0#3) :
    (p.len.isSome ↔ i ∈ anyLenCommands) ∧
    ((∃ k : Fin 19, (p.out.get k).isSome) → i ∈ outCommands) ∧
    (p.r.isSome ↔ i ∈ rCommands) ∧
    (p.flag.isSome ↔ i ∈ flagCommands) := by
  cases h with
  | raised e he => exact absurd (e.code_eq_zero.mp (by simpa using hok)) he
  | out bs hi _ =>
    have hlen := outCommands_subset hi
    obtain ⟨hr, hflag⟩ := not_mem_of_mem_anyLenCommands i hlen
    exact ⟨iff_of_true rfl hlen, fun _ => hi, iff_of_false nofun hr, iff_of_false nofun hflag⟩
  | len l hi _ =>
    have hlen := lenCommands_subset hi
    obtain ⟨hr, hflag⟩ := not_mem_of_mem_anyLenCommands i hlen
    exact ⟨iff_of_true rfl hlen, by simp, iff_of_false nofun hr, iff_of_false nofun hflag⟩
  | r v hi =>
    obtain ⟨hlen, hflag⟩ := not_mem_of_mem_rCommands i hi
    exact ⟨iff_of_false nofun hlen, by simp, iff_of_true rfl hi, iff_of_false nofun hflag⟩
  | flag f hi =>
    obtain ⟨hlen, hr⟩ := not_mem_of_mem_flagCommands i hi
    exact ⟨iff_of_false nofun hlen, by simp, iff_of_false nofun hr, iff_of_true rfl hi⟩

/-- No command reads the previous response (R27: nothing is sticky). -/
theorem exec_respond (i : Instr) (s : State) (p : Response) : exec i (s.respond p) = exec i s := by cases i <;> rfl

/-- Settles O51: the fields by the response each command produces, and `exec_respond`. -/
theorem responseFieldsProduced : Obligations.ResponseFieldsProduced :=
  ⟨fun i s t h => (exec_produces i s t h).fields_of_ok, fun i s p _ h => (exec_respond i s p).trans h⟩

end Sys2Proof.Machine

/-! SUPPORT. The invariant of the machine: it holds at reset, and every transaction and every step keeps it (spec 10_state.md R20, R24, R30;
20_memory.md R42, R46). -/

namespace Sys2Proof.Machine

open Sys2Proof.Safety

/-! The response. -/

/-- Every response a command produces is one the spec allows; the range of `R` is that of the command's answer (`exec_r_range`). -/
theorem Produces.responseSound {i : Instr} {s : State} {p : Response} (h : Produces i s p) (htab : TablesHold s)
    (hr : ∀ v, p.r = some v → v = Config.nativeSentinel ∨ (-(2 ^ 127) ≤ v ∧ v ≤ cutoff 18)) : ResponseSound p where
  statusCode c hc := by
    obtain ⟨c', hc', hle⟩ := h.status_le
    cases hc.symm.trans hc'
    exact hle
  valuesOnlyOnOk hne := by
    cases h with
    | raised e _ => exact ⟨rfl, Response.raised_lane e, rfl, rfl⟩
    | out | len | r | flag => exact absurd rfl hne
  oneResult hok := by
    cases h with
    | raised e he => exact absurd (e.code_eq_zero.mp (by simpa using hok)) he
    | out | len => exact .inl ⟨rfl, rfl, rfl⟩
    | r => exact .inr (.inl ⟨rfl, rfl, rfl⟩)
    | flag => exact .inr (.inr ⟨rfl, rfl, rfl⟩)
  lenRange l hl := by
    cases h with
    | raised | r | flag => cases hl
    | out bs _ hrange =>
      cases hl
      rw [toNat_len _ (hrange htab).2]
      exact hrange htab
    | len n _ hrange =>
      cases hl
      rw [toNat_len _ (hrange htab).2]
      exact hrange htab
  outLanes := by
    cases h with
    | raised e _ => exact .inl (Response.raised_lane e)
    | len n => exact .inl (Response.okLen_lane n)
    | r v => exact .inl (Response.okR_lane v)
    | flag f => exact .inl (Response.okFlag_lane f)
    | out bs _ hrange =>
      refine .inr ⟨_, rfl, fun k => ?_⟩
      rw [toNat_len _ (hrange htab).2]
      exact okOut_lane_isSome bs k
  rRange := hr

theorem noValue_sound : ResponseSound Response.noValue where
  statusCode := nofun
  valuesOnlyOnOk _ := ⟨rfl, noLane_get, rfl, rfl⟩
  oneResult := nofun
  lenRange := nofun
  outLanes := .inl noLane_get
  rRange := nofun

/-! The tables. -/

theorem exec_tables (i : Instr) (s t : State) (h : exec i s = .next t) : t.tabN = s.tabN ∧ t.tabX = s.tabX := by
  obtain e | ⟨_, _, _, _, _, e⟩ := exec_next_cases i s t h <;> rw [e] <;> exact ⟨rfl, rfl⟩

/-- No step writes a table (R20). -/
theorem step_tables (s t : State) (h : step s = .next t) : t.tabN = s.tabN ∧ t.tabX = s.tabX := by
  obtain ⟨_, rfl⟩ | ⟨_, _, _, rfl | ⟨_, _, rfl⟩ | ⟨l, th, u, req, _, hu, rfl⟩⟩ := step_cases s t h
  · exact ⟨rfl, rfl⟩
  · exact ⟨rfl, rfl⟩
  · exact ⟨rfl, rfl⟩
  · rw [queueIfOk_tabN, queueIfOk_tabX]
    exact exec_tables _ { s with script := _, req := req } u hu

/-! The destination buffer. -/

/-- A store inside the buffer keeps it sound (R42). -/
theorem destSound_writeBytes (s : State) (a : Nat) (bs : List Byte) (h : DestSound s) (hin : a + bs.length ≤ s.destLen) :
    DestSound { s with dest := Memory.writeBytes s.dest a bs } :=
  ⟨Memory.writeBytes_wf _ _ _ h.1, Memory.writeBytes_inside _ _ _ _ h.2 hin⟩

theorem handOver_destSound (bytes : List Byte) (s : State) : DestSound (handOver bytes s) :=
  ⟨handOver_wf bytes s, Memory.writeBytes_inside [] 0 bytes bytes.length nofun (by omega)⟩

/-- Every command keeps `DEST` sound: `ENCI.*` stores inside the capacity it asks for (R45, R46). -/
theorem exec_destSound (i : Instr) (s t : State) (htab : TablesHold s) (hd : DestSound s) (h : exec i s = .next t) : DestSound t := by
  obtain e | ⟨c, bs, _, hcap, hbs, rfl⟩ := exec_next_cases i s t h
  · rw [e]
    exact hd
  · have hlen := (encodeA_length c s bs htab hbs).2
    exact destSound_writeBytes s s.req.off bs hd (by omega)

/-! The whole invariant. -/

theorem exec_keeps_sound (i : Instr) (s t : State) (hs : Sound s) (h : exec i s = .next t) : Sound t where
  tables := by
    obtain ⟨hN, hX⟩ := exec_tables i s t h
    exact ⟨hN.trans hs.tables.1, hX.trans hs.tables.2⟩
  dest := exec_destSound i s t hs.tables hs.dest h
  resp := (exec_produces i s t h).responseSound hs.tables fun v hv => exec_r_range i s t v hs.tables h hv

/-- The invariant looks neither at the script nor at the request. -/
theorem sound_with_script_req (s : State) (h : Sound s) (script : List Item) (req : Request) :
    Sound { s with script := script, req := req } := ⟨h.tables, h.dest, h.resp⟩

theorem queueIfOk_keeps_sound (l : Option Line) (s : State) (h : Sound s) : Sound (queueIfOk l s) := by
  obtain e | ⟨l', _, _, e⟩ := queueIfOk_eq l s <;> rw [e]
  · exact h
  · exact sound_with_script_req s h _ s.req

/-- Settles O6: every way a step can answer (`step_cases`) keeps the invariant, a transaction by `exec_keeps_sound`. -/
theorem stepKeepsInvariant : Obligations.StepKeepsInvariant := by
  intro s t hs h
  obtain ⟨_, rfl⟩ | ⟨_, rest, _, rfl | ⟨bytes, _, rfl⟩ | ⟨l, th, u, req, _, hu, rfl⟩⟩ := step_cases s t h
  · exact hs
  · exact sound_with_script_req s hs rest s.req
  · exact ⟨hs.tables, handOver_destSound bytes _, hs.resp⟩
  · exact queueIfOk_keeps_sound th u (exec_keeps_sound _ _ u (sound_with_script_req s hs rest req) hu)

/-- Settles O5: no buffer, no response (`noValue_sound`). -/
theorem resetMeetsInvariant : Obligations.ResetMeetsInvariant := ⟨⟨rfl, rfl⟩, ⟨reset_dest_wf, nofun⟩, noValue_sound⟩

end Sys2Proof.Machine

/-! SUPPORT. The boundary tables: the closed form and the width of `cutoff`, and the tables in the reset state (spec 10_state.md R20, R21,
R30). -/

namespace Sys2Proof.Machine

open Sys2Proof.Safety

/-- `cutoff[i]` is the sum of the sizes of the bands up to `i` (R20, R102). -/
theorem cutoff_eq_sum (i : Nat) : cutoff i = ∑ k ∈ Finset.Icc 1 (i + 1), 2 ^ (7 * k) := by
  induction i with
  | zero => rfl
  | succ i ih => rw [Finset.sum_Icc_succ_top (by omega), ← ih, cutoff_sub_lowerBound (i + 1), lowerBound_succ]

theorem cutoff_recurrence (i : Nat) (h : 1 ≤ i) : cutoff i = (cutoff (i - 1) + 1) * 128 := by
  rw [← cutoff_succ, Nat.sub_add_cancel h]

theorem two_pow_le_cutoff (i : Nat) : 2 ^ (7 * (i + 1)) ≤ cutoff i := by
  rw [cutoff_sub_lowerBound i]
  exact Nat.le_add_left _ _

/-- The bands below band `i` hold together fewer values than band `i`, with room for two more. -/
theorem cutoff_add_two_le (i : Nat) : cutoff i + 2 ≤ 2 ^ (7 * (i + 1) + 1) := by
  induction i with
  | zero => decide
  | succ i ih =>
    have hpow : 2 ^ (7 * (i + 1 + 1) + 1) = 128 * 2 ^ (7 * (i + 1) + 1) := by ring
    rw [cutoff_succ, hpow]
    omega

/-- The width of `cutoff[i]`, at every `i` (R21). -/
theorem cutoff_width (i : Nat) : Nat.log2 (cutoff i) + 1 = 8 + 7 * i := by
  have hlo := two_pow_le_cutoff i
  have hhi := cutoff_add_two_le i
  have hlog : Nat.log2 (cutoff i) = 7 * (i + 1) :=
    (Nat.log2_eq_iff (Nat.two_pow_pos _ |>.trans_le hlo).ne').mpr ⟨hlo, by omega⟩
  omega

/-! The reset state. -/

theorem reset_tabX_toList : State.reset.tabX.toList = (List.range 19).map cutoff := table_X State.reset ⟨rfl, rfl⟩

theorem reset_tabN_toList : State.reset.tabN.toList = (List.range 7).map cutoff ++ [Config.nativeSentinel] :=
  table_N State.reset ⟨rfl, rfl⟩

theorem reset_tabX_get (i : Fin 19) : State.reset.tabX.get i = cutoff i := by
  simp [Vector.get_eq_getElem, ← Vector.getElem_toList, reset_tabX_toList]

theorem reset_tabN_get (i : Fin 8) (h : i.val < 7) : State.reset.tabN.get i = cutoff i := by
  simp [Vector.get_eq_getElem, ← Vector.getElem_toList, reset_tabN_toList, List.getElem_append_left, h]

theorem two_pow_le_nativeSentinel : 2 ^ 53 ≤ Config.nativeSentinel := Nat.le_add_right _ _

/-- Settles O11: the closed form is `cutoff_eq_sum`, and that no step writes a table is `step_tables`. -/
theorem tablesFollowTheRecurrence : Obligations.TablesFollowTheRecurrence :=
  ⟨rfl, cutoff_recurrence, reset_tabX_get, fun i h => reset_tabN_get i (Nat.lt_succ_of_le h), rfl, two_pow_le_nativeSentinel,
    cutoff_eq_sum, step_tables⟩

/-- Settles O4: the fields by the reset state itself, the tables entry by entry. -/
theorem resetHoldsTablesAndNoResponse : Obligations.ResetHoldsTablesAndNoResponse :=
  ⟨rfl, rfl, noLane_get, rfl, rfl, reset_tabX_get, reset_tabN_get⟩

/-- Settles O12: the decimals and the ceilings by evaluation, the widths by `cutoff_width`. -/
theorem tableValuesInDecimal : Obligations.TableValuesInDecimal :=
  ⟨by decide, fun i _ => cutoff_width i, reset_tabX_toList, reset_tabN_toList, by decide, ceil_lt_cutoff .N, by decide,
    ceil_lt_cutoff .X⟩

end Sys2Proof.Machine

/-! SUPPORT. How a line is presented and issued, with an operand the host can read and with one it cannot (spec 30_encoding.md R64, R75,
R76; 10_state.md R23, R24). -/

namespace Sys2Proof.Machine

open Sys2Proof.Safety

/-! The operands, as presented. -/

theorem presentA_of_reads (i : Instr) (src : ASource) (s : State) (h : readsA i = true) : presentA i src s = resolveA src s := if_pos h

theorem presentIn_of_reads (i : Instr) (src : InSource) (s : State) (h : readsIn i = true) : presentIn i src s = resolveIn src s :=
  if_pos h

theorem presentOff_of_reads (i : Instr) (off : Nat) (h : readsOff i = true) : presentOff i off = off := if_pos h

/-- A command that reads `IN` does not read `A` (R64). -/
theorem readsA_eq_false_of_readsIn (i : Instr) (h : readsIn i = true) : readsA i = false := by
  revert h
  cases i <;> simp [readsIn, readsA]

theorem presentA_lit (i : Instr) (v : Int) (s : State) : ∃ a, presentA i (.lit v) s = .ok a := by
  unfold presentA
  split
  · exact ⟨v, rfl⟩
  · exact ⟨0, rfl⟩

theorem presentIn_bytes (i : Instr) (bs : List Byte) (s : State) : ∃ bs', presentIn i (.bytes bs) s = .ok bs' := by
  unfold presentIn
  split
  · exact ⟨bs, rfl⟩
  · exact ⟨[], rfl⟩

theorem resolveA_prevR (s : State) (h : s.resp.r = none) : resolveA .prevR s = .error .readNoValue := by
  rw [resolveA, h]

theorem allValues_eq_none {α : Type} (vs : List (Option α)) (h : none ∈ vs) : allValues vs = none := by
  induction vs with
  | nil => cases h
  | cons v vs ih =>
    cases v with
    | none => rfl
    | some v =>
      have hvs : none ∈ vs := by simpa using h
      rw [allValues, ih hvs]

/-- `OUT[0..LEN-1]` cannot be read where `LEN` or one of these lanes holds no value (R24; log 8). -/
theorem outBytes_eq_none (p : Response)
    (h : p.len = none ∨ ∃ n, p.len = some n ∧ ∃ k : Fin 19, k.val < n.toNat ∧ p.out.get k = none) : p.outBytes = none := by
  unfold Response.outBytes
  obtain hlen | ⟨n, hlen, k, hk, hnone⟩ := h
  · rw [hlen]
  · rw [hlen]
    simp only
    split
    · rfl
    · refine allValues_eq_none _ (List.mem_take_iff_getElem.mpr ⟨k, by simp [hk], ?_⟩)
      rw [Vector.getElem_toList, ← Vector.get_eq_getElem]
      exact hnone

theorem resolveIn_prevOut (s : State) (h : s.resp.outBytes = none) : resolveIn .prevOut s = .error .readNoValue := by
  rw [resolveIn, h]

/-! Presenting a line. -/

theorem present_eq_ok (l : Line) (s : State) (a : Int) (bs : List Byte) (ha : presentA (decodeCmd l.cmd) l.a s = .ok a)
    (hb : presentIn (decodeCmd l.cmd) l.inp s = .ok bs) :
    present l s = .ok { s with req := { cmd := l.cmd, a := a, inp := bs, off := presentOff (decodeCmd l.cmd) l.off } } := by
  rw [present, ha, hb]

theorem present_lit (l : Line) (s : State) (v : Int) (bs : List Byte) (ha : l.a = .lit v) (hb : l.inp = .bytes bs) :
    ∃ s', present l s = .ok s' := by
  obtain ⟨a, hpa⟩ := presentA_lit (decodeCmd l.cmd) v s
  obtain ⟨bs', hpb⟩ := presentIn_bytes (decodeCmd l.cmd) bs s
  exact ⟨_, present_eq_ok l s a bs' (ha ▸ hpa) (hb ▸ hpb)⟩

/-- `A=R` cannot be presented where `R` holds no value (R24, R75). -/
theorem present_prevR (l : Line) (s : State) (hreads : readsA (decodeCmd l.cmd) = true) (ha : l.a = .prevR) (hr : s.resp.r = none) :
    present l s = .error .readNoValue := by
  rw [present, presentA_of_reads _ _ _ hreads, ha, resolveA_prevR s hr]

/-- `IN=OUT` cannot be presented where `OUT[0..LEN-1]` cannot be read (R24, R75). -/
theorem present_prevOut (l : Line) (s : State) (hreads : readsIn (decodeCmd l.cmd) = true) (hin : l.inp = .prevOut)
    (hout : s.resp.outBytes = none) : present l s = .error .readNoValue := by
  have hA : presentA (decodeCmd l.cmd) l.a s = .ok 0 := by
    rw [presentA, readsA_eq_false_of_readsIn _ hreads]
    rfl
  rw [present, hA, presentIn_of_reads _ _ _ hreads, hin, resolveIn_prevOut s hout]

/-! A step, by what the head of the script does. -/

theorem issueLine_of_ok (l : Line) (th : Option Line) (s s' : State) (h : present l s = .ok s') :
    issueLine l th s = .issue (decodeCmd l.cmd) s' th := by
  rw [issueLine, h]

theorem issueLine_of_error (l : Line) (th : Option Line) (s : State) (f : Fault) (h : present l s = .error f) :
    issueLine l th s = .stop f := by
  rw [issueLine, h]

theorem fetch_of_script (s : State) (item : Item) (rest : List Item) (h : s.script = item :: rest) :
    fetch s = fetchItem item { s with script := rest } := by
  rw [fetch, h]

/-- A line the host can present is run (R22, R75). -/
theorem step_line (s s' : State) (l : Line) (rest : List Item) (hs : s.script = .line l :: rest)
    (hp : present l { s with script := rest } = .ok s') : step s = exec (decodeCmd l.cmd) s' := by
  rw [step, fetch_of_script s _ rest hs, fetchItem, issueLine_of_ok l none _ s' hp]
  exact andThen_none _

/-- A first line the host cannot present is its fault, whatever was to follow it (R76, R206). -/
theorem step_stop (s : State) (item : Item) (rest : List Item) (l : Line) (th : Option Line) (f : Fault)
    (hs : s.script = item :: rest) (hitem : fetchItem item { s with script := rest } = issueLine l th { s with script := rest })
    (hp : present l { s with script := rest } = .error f) : step s = .fault f := by
  rw [step, fetch_of_script s item rest hs, hitem, issueLine_of_error l th _ f hp]

theorem step_readField (s : State) (rest : List Item) (f : RespField) (hs : s.script = .readField f :: rest) :
    step s = if s.resp.holds f then .next { s with script := rest } else .fault .readNoValue := by
  rw [step, fetch_of_script s _ rest hs, fetchItem]
  by_cases h : s.resp.holds f = true
  · simp [h]
  · simp [h]

/-- Settles O7, by `step_line`. -/
theorem stepRunsDecodedInstruction : Obligations.StepRunsDecodedInstruction := by
  intro s s' l rest i hs hd hp
  obtain rfl : decodeCmd l.cmd = i := by simpa [decode] using hd
  exact step_line s s' l rest hs hp

/-! The words of the pseudo-instructions' first lines read the operand the host names (R76). -/

theorem readsA_zzeWord (c : Cls) : readsA (decodeCmd (zzeWord c)) = true := by cases c <;> decide

theorem readsIn_decWord (c : Cls) : readsIn (decodeCmd (decWord c)) = true := by cases c <;> decide

/-- Settles O9: each item begins with a line that cannot be presented (`present_prevR`, `present_prevOut`), or is a host read. -/
theorem readNoValueFaults : Obligations.ReadNoValueFaults := by
  refine fun s rest => ⟨fun l hs hreads ha hr => ?_, fun l hs hreads hin hout => ?_, fun c hs hr => ?_, fun c hs hout => ?_,
    fun f hs => step_readField s rest f hs⟩
  · exact step_stop s _ rest l none _ hs rfl (present_prevR l _ hreads ha hr)
  · exact step_stop s _ rest l none _ hs rfl (present_prevOut l _ hreads hin (outBytes_eq_none _ hout))
  · obtain hs | ⟨off, hs⟩ := hs
    · exact step_stop s _ rest _ _ _ hs rfl (present_prevR _ _ (readsA_zzeWord c) rfl hr)
    · exact step_stop s _ rest _ _ _ hs rfl (present_prevR _ _ (readsA_zzeWord c) rfl hr)
  · exact step_stop s _ rest _ _ _ hs rfl (present_prevOut _ _ (readsIn_decWord c) rfl (outBytes_eq_none _ hout))

/-! What presenting sets. -/

theorem present_sets (l : Line) (s s' : State) (h : present l s = .ok s') :
    s' = { s with req := s'.req } ∧ s'.req.cmd = l.cmd ∧
    (readsA (decodeCmd l.cmd) = true → resolveA l.a s = .ok s'.req.a) ∧
    (readsIn (decodeCmd l.cmd) = true → resolveIn l.inp s = .ok s'.req.inp) ∧
    (readsOff (decodeCmd l.cmd) = true → s'.req.off = l.off) := by
  obtain ⟨a, bs, ha, hb, rfl⟩ := present_ok l s s' h
  exact ⟨rfl, rfl, fun hr => (presentA_of_reads _ _ _ hr).symm.trans ha, fun hr => (presentIn_of_reads _ _ _ hr).symm.trans hb,
    presentOff_of_reads _ _⟩

/-- The line that `issueWord` puts first is run next, with everything but the request and `DEST_LEN` as it was (log 1). -/
theorem step_issueWord (w : Byte) (s : State) : ∃ s' : State, step (issueWord w s) = exec (decodeCmd w) s' ∧ s'.req.cmd = w ∧
    s'.resp = s.resp ∧ s'.dest = s.dest ∧ s'.tabN = s.tabN ∧ s'.tabX = s.tabX ∧ s'.script = s.script := by
  obtain ⟨s', hp⟩ := present_lit { cmd := w, a := .lit 0, inp := .bytes [0#8], off := 0 } { issueWord w s with script := s.script }
    0 [0#8] rfl rfl
  obtain ⟨hframe, hcmd, _⟩ := present_sets _ _ s' hp
  refine ⟨s', step_line _ s' _ s.script rfl hp, hcmd, ?_⟩
  rw [hframe]
  exact ⟨rfl, rfl, rfl, rfl, rfl⟩

/-- Settles O8: `present_sets`, `present_lit` and `step_issueWord`. -/
theorem presentSetsTheRequest : Obligations.PresentSetsTheRequest := by
  refine ⟨present_sets, present_lit, fun s w => ?_⟩
  rw [State.withFetchWord, BitVec.ofNat_toNat, BitVec.setWidth_eq]
  exact step_issueWord w s

end Sys2Proof.Machine

/-! SUPPORT. Which commands can fault, and what a command changes (spec 20_memory.md R45, R46). -/

namespace Sys2Proof.Machine

open Sys2Proof.Safety

theorem exists_cls_iff (p : Cls → Prop) : (∃ c, p c) ↔ p .N ∨ p .X :=
  ⟨fun ⟨c, h⟩ => by cases c with | N => exact .inl h | X => exact .inr h, fun h => h.elim (⟨.N, ·⟩) (⟨.X, ·⟩)⟩

theorem exec_enciOf (c : Cls) (s : State) : exec (enciOf c) s = encodeToDest c s := by cases c <;> rfl

theorem enciOf_injective : Function.Injective enciOf := fun c c' h =>
  match c, c', h with
  | .N, .N, _ => rfl
  | .X, .X, _ => rfl

/-- Every command but `ENCI.*` answers, with a response and nothing else changed. -/
theorem exec_eq_respond (i : Instr) (s : State) (h : ¬∃ c, i = enciOf c) : ∃ p, exec i s = .next (s.respond p) := by
  cases i with
  | encN => exact ⟨_, execEncN_eq s⟩
  | enciN => exact absurd ⟨.N, rfl⟩ h
  | decN => exact ⟨_, execDecN_eq s⟩
  | bused => exact ⟨_, execBused_eq s⟩
  | bcontN => exact ⟨_, rfl⟩
  | zzeN => exact ⟨_, execZzeN_eq s⟩
  | zzdN => exact ⟨_, execZzdN_eq s⟩
  | btlN => obtain ⟨_, e⟩ | ⟨_, _, _, e⟩ := tableLookup_cases .N s <;> exact ⟨_, e⟩
  | encX => exact ⟨_, execEncX_eq s⟩
  | enciX => exact absurd ⟨.X, rfl⟩ h
  | decX => exact ⟨_, execDecX_eq s⟩
  | bcontX => exact ⟨_, rfl⟩
  | zzeX => exact ⟨_, execZzeX_eq s⟩
  | zzdX => exact ⟨_, execZzdX_eq s⟩
  | btlX => obtain ⟨_, e⟩ | ⟨_, _, _, e⟩ := tableLookup_cases .X s <;> exact ⟨_, e⟩
  | reservedBusedX => exact ⟨_, rfl⟩
  | reservedRsv rsv x func => exact ⟨_, rfl⟩

/-- `ENCI.C` faults just where the capacity is missing, and answers everywhere else (R45). -/
theorem encodeToDest_stops_iff (c : Cls) (s : State) :
    (∀ f, encodeToDest c s = .fault f ↔ s.destLen < s.req.off + maxLen c ∧ f = .capacityObligation) ∧
      ∀ r, encodeToDest c s ≠ .refused r := by
  obtain ⟨hcap, e⟩ | ⟨hcap, ⟨_, e⟩ | ⟨_, e⟩ | ⟨_, _, _, e⟩⟩ := encodeToDest_cases c s
  · rw [e]
    exact ⟨fun f => by simp [hcap, eq_comm], nofun⟩
  all_goals
    rw [e]
    exact ⟨fun f => iff_of_false nofun fun h => not_lt.mpr hcap h.1, nofun⟩

/-- The one fault of any command, and where it is raised (R45). -/
theorem exec_fault_iff (i : Instr) (s : State) (f : Fault) :
    exec i s = .fault f ↔ (∃ c, i = enciOf c ∧ s.destLen < s.req.off + maxLen c) ∧ f = .capacityObligation := by
  by_cases hi : ∃ c, i = enciOf c
  · obtain ⟨c, rfl⟩ := hi
    have hclass : (∃ c', enciOf c = enciOf c' ∧ s.destLen < s.req.off + maxLen c') ↔ s.destLen < s.req.off + maxLen c :=
      ⟨fun ⟨_, hc, h⟩ => enciOf_injective hc ▸ h, fun h => ⟨c, rfl, h⟩⟩
    rw [exec_enciOf, (encodeToDest_stops_iff c s).1, hclass]
  · obtain ⟨p, e⟩ := exec_eq_respond i s hi
    rw [e]
    exact iff_of_false nofun fun ⟨⟨c, hc, _⟩, _⟩ => hi ⟨c, hc⟩

theorem exec_ne_refused (i : Instr) (s : State) (r : Refusal) : exec i s ≠ .refused r := by
  by_cases hi : ∃ c, i = enciOf c
  · obtain ⟨c, rfl⟩ := hi
    rw [exec_enciOf]
    exact (encodeToDest_stops_iff c s).2 r
  · obtain ⟨p, e⟩ := exec_eq_respond i s hi
    rw [e]
    nofun

/-- Settles O50: `exec_fault_iff`, read class by class. -/
theorem capacityObligationExactly : Obligations.CapacityObligationExactly := by
  refine fun i s => ⟨?_, fun f h => ((exec_fault_iff i s f).mp h).2, exec_ne_refused i s⟩
  calc (∃ f, exec i s = .fault f)
    _ ↔ ∃ c, i = enciOf c ∧ s.destLen < s.req.off + maxLen c := by simp only [exec_fault_iff, exists_and_left, exists_eq, and_true]
    _ ↔ _ := exists_cls_iff _

/-! What a command changes (R46). -/

/-- A command that answers leaves everything but the response and `DEST` as it was. -/
theorem exec_frame (i : Instr) (s t : State) (h : exec i s = .next t) : t = { s with resp := t.resp, dest := t.dest } := by
  obtain e | ⟨_, _, _, _, _, e⟩ := exec_next_cases i s t h
  · rw [e]; rfl
  · rw [e]

theorem exec_dest_of_not_enci (i : Instr) (s t : State) (hi : ¬∃ c, i = enciOf c) (h : exec i s = .next t) : t.dest = s.dest := by
  obtain e | ⟨c, _, hc, _⟩ := exec_next_cases i s t h
  · rw [e, State.respond_dest]
  · exact absurd ⟨c, hc⟩ hi

theorem exec_dest_of_not_ok (i : Instr) (s t : State) (hok : t.resp.status ≠ some 0#3) (h : exec i s = .next t) :
    t.dest = s.dest := by
  obtain e | ⟨_, _, _, _, _, rfl⟩ := exec_next_cases i s t h
  · rw [e, State.respond_dest]
  · exact absurd rfl hok

/-- What `ENCI.C` stores, where it answers a length: that many bytes from `OFF` on, inside the buffer. -/
theorem encodeToDest_writes (c : Cls) (s t : State) (l : BitVec 5) (hwf : Memory.wf s.dest) (htab : TablesHold s)
    (h : encodeToDest c s = .next t) (hl : t.resp.len = some l) :
    s.req.off + l.toNat ≤ s.destLen ∧
      ∀ a, a < s.req.off ∨ s.req.off + l.toNat ≤ a → Memory.read t.dest a = Memory.read s.dest a := by
  obtain ⟨hcap, ⟨_, _, rfl⟩ | ⟨bs, hbs, rfl⟩⟩ := encodeToDest_next c s t h
  · cases hl
  · have hlen := (encodeA_length c s bs htab hbs).2
    obtain rfl : BitVec.ofNat 5 bs.length = l := by simpa using hl
    rw [toNat_len _ (hlen.trans (maxLen_le c))]
    refine ⟨by omega, fun a ha => ?_⟩
    rw [Memory.read_writeBytes _ _ _ _ hwf, if_neg (by omega)]

/-- Settles O52: the frame, and what `ENCI.C` stores (`encodeToDest_writes`). -/
theorem onlyEnciWritesDest : Obligations.OnlyEnciWritesDest := by
  refine fun i s t hwf h => ⟨exec_frame i s t h, fun hN hX => ?_, fun hok => exec_dest_of_not_ok i s t hok h, fun htab l hi hl => ?_⟩
  · exact exec_dest_of_not_enci i s t (by rw [exists_cls_iff]; exact not_or.mpr ⟨hN, hX⟩) h
  · obtain ⟨c, rfl⟩ := (exists_cls_iff fun c => i = enciOf c).mpr hi
    exact encodeToDest_writes c s t l hwf htab ((exec_enciOf c s).symm.trans h) hl

end Sys2Proof.Machine

/-! SUPPORT. A command's response is a function of the tables and of what the command reads (spec 20_memory.md R47). -/

namespace Sys2Proof.Machine

open Sys2Proof.Safety

/-- Two states agree on all that the command `i` can see: the tables and what it reads of the request, with `DEST_LEN` where it reads
`OFF` (R47, R64). -/
structure AgreeFor (i : Instr) (s s' : State) : Prop where
  tabN : s.tabN = s'.tabN
  tabX : s.tabX = s'.tabX
  destLen : readsOff i = true → s.destLen = s'.destLen
  a : readsA i = true → s.req.a = s'.req.a
  inp : readsIn i = true → s.req.inp = s'.req.inp
  off : readsOff i = true → s.req.off = s'.req.off

theorem AgreeFor.table {i : Instr} {s s' : State} (h : AgreeFor i s s') (c : Cls) : s.table c = s'.table c := by
  cases c with
  | N => exact congrArg Vector.toList h.tabN
  | X => exact congrArg Vector.toList h.tabX

/-- The outcome `o` answers with the response of `t`, whatever else it leaves. -/
def AnswersAs (o : Host.Outcome State Fault Refusal) (t : State) : Prop := ∃ t', o = .next t' ∧ t'.resp = t.resp

theorem encodeA_congr (c : Cls) {s s' : State} (htab : s.table c = s'.table c) (ha : s.req.a = s'.req.a) :
    encodeA c s = encodeA c s' := by
  rw [encodeA, encodeA, htab, ha]

/-- A computation ends in the same response in every state. -/
theorem finish_answersAs {α : Type} {x x' : Res α} {f : α → Response} {s s' t : State} (hx : x = x') (h : s.finish x f = .next t) :
    AnswersAs (s'.finish x' f) t := by
  subst hx
  cases (State.finish_eq s x f).symm.trans h
  exact ⟨_, State.finish_eq s' x f, rfl⟩

theorem tableLookup_answersAs (c : Cls) {s s' t : State} (htab : s.table c = s'.table c) (ha : s.req.a = s'.req.a)
    (h : tableLookup c s = .next t) : AnswersAs (tableLookup c s') t := by
  unfold tableLookup at h ⊢
  rw [htab, ha] at h
  split at h
  · next hout =>
    cases h
    exact ⟨_, if_pos hout, rfl⟩
  · next hin =>
    cases h
    exact ⟨_, if_neg hin, rfl⟩

theorem encodeToDest_answersAs (c : Cls) {s s' t : State} (htab : s.table c = s'.table c) (ha : s.req.a = s'.req.a)
    (hoff : s.req.off = s'.req.off) (hlen : s.destLen = s'.destLen) (h : encodeToDest c s = .next t) :
    AnswersAs (encodeToDest c s') t := by
  have henc := encodeA_congr c htab ha
  unfold encodeToDest
  obtain ⟨hcap, ⟨e, he, rfl⟩ | ⟨bs, hbs, rfl⟩⟩ := encodeToDest_next c s t h
  · rw [if_neg (by omega), ← henc, he]
    exact ⟨_, rfl, rfl⟩
  · rw [if_neg (by omega), ← henc, hbs]
    exact ⟨_, rfl, rfl⟩

/-- Every command is pure: it gives the same response in every state that agrees on what it reads. -/
theorem exec_answersAs (i : Instr) (s s' t : State) (hag : AgreeFor i s s') (h : exec i s = .next t) : AnswersAs (exec i s') t := by
  cases i with
  | encN => exact finish_answersAs (encodeA_congr .N (hag.table .N) (hag.a rfl)) h
  | enciN => exact encodeToDest_answersAs .N (hag.table .N) (hag.a rfl) (hag.off rfl) (hag.destLen rfl) h
  | decN => exact finish_answersAs (congrArg₂ decodeNativeBytes (hag.table .N) (hag.inp rfl)) h
  | bused => exact finish_answersAs (congrArg bytesUsed (hag.inp rfl)) h
  | bcontN => cases h; exact ⟨_, rfl, congrArg (fun b => Response.okFlag (bcont .N b)) (hag.inp rfl).symm⟩
  | zzeN => exact finish_answersAs (congrArg (signedOperand .N) (hag.a rfl)) h
  | zzdN => exact finish_answersAs (congrArg (unsignedOperand .N) (hag.a rfl)) h
  | btlN => exact tableLookup_answersAs .N (hag.table .N) (hag.a rfl) h
  | encX => exact finish_answersAs (encodeA_congr .X (hag.table .X) (hag.a rfl)) h
  | enciX => exact encodeToDest_answersAs .X (hag.table .X) (hag.a rfl) (hag.off rfl) (hag.destLen rfl) h
  | decX => exact finish_answersAs (congrArg₂ decodeExtendedBytes (hag.table .X) (hag.inp rfl)) h
  | bcontX => cases h; exact ⟨_, rfl, congrArg (fun b => Response.okFlag (bcont .X b)) (hag.inp rfl).symm⟩
  | zzeX => exact finish_answersAs (congrArg (signedOperand .X) (hag.a rfl)) h
  | zzdX => exact finish_answersAs (congrArg (unsignedOperand .X) (hag.a rfl)) h
  | btlX => exact tableLookup_answersAs .X (hag.table .X) (hag.a rfl) h
  | reservedBusedX => cases h; exact ⟨_, rfl, rfl⟩
  | reservedRsv rsv x func => cases h; exact ⟨_, rfl, rfl⟩

/-! Repeating a command (R47). -/

/-- A command changes nothing that it reads. -/
theorem exec_agreeFor (i : Instr) (s t : State) (h : exec i s = .next t) : AgreeFor i s t := by
  rw [exec_frame i s t h]
  exact ⟨rfl, rfl, fun _ => rfl, fun _ => rfl, fun _ => rfl, fun _ => rfl⟩

theorem Memory.read_writeBytes_twice (m : List Host.Cell) (a : Nat) (bs : List Byte) (a' : Nat) (h : Memory.wf m) :
    Memory.read (Memory.writeBytes (Memory.writeBytes m a bs) a bs) a' = Memory.read (Memory.writeBytes m a bs) a' := by
  rw [Memory.read_writeBytes _ a bs a' (Memory.writeBytes_wf m a bs h), Memory.read_writeBytes m a bs a' h]
  split <;> rfl

/-- Repeated, `ENCI.C` stores the bytes it stored before, in the same places. -/
theorem encodeToDest_repeated (c : Cls) (s t t' : State) (hwf : Memory.wf s.dest) (h : encodeToDest c s = .next t)
    (h' : encodeToDest c t = .next t') (a : Nat) : Memory.read t'.dest a = Memory.read t.dest a := by
  obtain ⟨_, ⟨_, _, rfl⟩ | ⟨bs', hbs', rfl⟩⟩ := encodeToDest_next c t t' h'
  · rw [State.raise_dest]
  · obtain ⟨_, ⟨e, he, rfl⟩ | ⟨bs, hbs, rfl⟩⟩ := encodeToDest_next c s t h
    · cases he.symm.trans hbs'
    · cases hbs.symm.trans hbs'
      exact Memory.read_writeBytes_twice s.dest s.req.off _ a hwf

theorem exec_repeated (i : Instr) (s t t' : State) (hwf : Memory.wf s.dest) (h : exec i s = .next t) (h' : exec i t = .next t')
    (a : Nat) : Memory.read t'.dest a = Memory.read t.dest a := by
  by_cases hi : ∃ c, i = enciOf c
  · obtain ⟨c, rfl⟩ := hi
    rw [exec_enciOf] at h h'
    exact encodeToDest_repeated c s t t' hwf h h' a
  · rw [exec_dest_of_not_enci i t t' hi h']

/-- Settles O53: purity (`exec_answersAs`), applied again to the state the command left, which agrees on what the command reads. -/
theorem commandsArePure : Obligations.CommandsArePure := by
  refine ⟨fun i s s' t hN hX hlen ha hin hoff h => exec_answersAs i s s' t ⟨hN, hX, hlen, ha, hin, hoff⟩ h, fun i s t hwf h => ?_⟩
  obtain ⟨t', h', hresp⟩ := exec_answersAs i s t t (exec_agreeFor i s t h) h
  exact ⟨t', h', hresp, exec_repeated i s t t' hwf h h'⟩

end Sys2Proof.Machine

/-! SUPPORT. The decoders give back what the encoder wrote: a byte sequence's marker gives the band, and its first bytes the value they
denote (spec 30_encoding.md R68 to R70; 41_native_codec.md R122, R123; 42_extended_codec.md R142, R144). -/

namespace Sys2Proof.Machine

open Sys2Proof.Safety

/-! The bits of a byte sequence and of its big-endian integer (R9). -/

/-- `n` bytes are `8n` bits. -/
theorem pow_256 (n : Nat) : 256 ^ n = 2 ^ (8 * n) := (pow_mul 2 8 n).symm

theorem bitAt_cons (x : Byte) (b : List Byte) (j : Nat) :
    bitAt (x :: b) j = if j < 8 then x.getLsbD (7 - j) else bitAt b (j - 8) := by
  unfold bitAt
  split
  · next hj => rw [Nat.div_eq_of_lt hj, Nat.mod_eq_of_lt hj, List.getD_cons_zero]
  · next hj => rw [show j / 8 = (j - 8) / 8 + 1 by omega, show j % 8 = (j - 8) % 8 by omega, List.getD_cons_succ]

/-- Bit `j` from the front is a bit of the big-endian integer, counted from the back. -/
theorem bitAt_eq_testBit (b : List Byte) (j : Nat) (h : j < 8 * b.length) :
    bitAt b j = (beNat b).testBit (8 * b.length - 1 - j) := by
  induction b generalizing j with
  | nil => simp at h
  | cons x b ih =>
    have hpow : x.toNat * 256 ^ b.length = 2 ^ (8 * b.length) * x.toNat := by rw [pow_256, Nat.mul_comm]
    have hlt : beNat b < 2 ^ (8 * b.length) := pow_256 b.length ▸ beNat_lt b
    rw [List.length_cons] at h ⊢
    rw [bitAt_cons, beNat, hpow, Nat.testBit_two_pow_mul_add _ hlt]
    by_cases hj : j < 8
    · rw [if_pos hj, if_neg (by omega), show 8 * (b.length + 1) - 1 - j - 8 * b.length = 7 - j by omega]
      rfl
    · rw [if_neg hj, if_pos (by omega), ih (j - 8) (by omega)]
      congr 1
      omega

theorem bitAt_append_left (b rest : List Byte) (j : Nat) (h : j < 8 * b.length) : bitAt (b ++ rest) j = bitAt b j := by
  rw [bitAt, bitAt, List.getD_append _ _ _ _ (by omega)]

theorem markerAt_append (b rest : List Byte) (i : Nat) (h : MarkerAt b i) : MarkerAt (b ++ rest) i := by
  obtain ⟨hi, hones, hzero⟩ := h
  refine ⟨by rw [List.length_append]; omega, fun j hj => ?_, ?_⟩
  · rw [bitAt_append_left b rest j (by omega)]
    exact hones j hj
  · rw [bitAt_append_left b rest i hi]
    exact hzero

/-- The band-local magnitude of a value takes `7(i+1)` bits (R102). -/
theorem sub_lowerBound_lt (i v : Nat) (h : InBand i v) : v - lowerBound i < 2 ^ (7 * (i + 1)) := by
  have hsize := cutoff_sub_lowerBound i
  omega

/-- The bit string of an encoding begins with its band's marker (R68). -/
theorem markerAt_of_isEncoding {i m : Nat} {bs : List Byte} (h : IsEncoding i m bs) (hm : m < 2 ^ (7 * (i + 1))) : MarkerAt bs i := by
  obtain ⟨hlen, hbe⟩ := h
  have hlt : m < 2 ^ (7 * (i + 1) + 1) := hm.trans (Nat.pow_lt_pow_succ one_lt_two)
  have hbit : ∀ j, j < 8 * (i + 1) → bitAt bs j = (2 ^ (7 * (i + 1) + 1) * (2 ^ i - 1) + m).testBit (8 * (i + 1) - 1 - j) := by
    intro j hj
    rw [bitAt_eq_testBit bs j (hlen ▸ hj), hbe, hlen, Nat.mul_comm]
  refine ⟨by omega, fun j hj => ?_, ?_⟩
  · rw [hbit j (by omega), Nat.testBit_two_pow_mul_add _ hlt, if_neg (by omega), Nat.testBit_two_pow_sub_one]
    exact decide_eq_true (by omega)
  · rw [hbit i (by omega), Nat.testBit_two_pow_mul_add _ hlt, if_pos (by omega), show 8 * (i + 1) - 1 - i = 7 * (i + 1) by omega]
    exact Nat.testBit_lt_two_pow hm

/-- The bytes of an encoding, whatever follows them, denote its band's lower bound plus the band-local magnitude (R70). -/
theorem denoted_append_of_isEncoding {i m : Nat} {bs : List Byte} (h : IsEncoding i m bs) (hm : m < 2 ^ (7 * (i + 1)))
    (rest : List Byte) : denoted (bs ++ rest) i = lowerBound i + m := by
  obtain ⟨hlen, hbe⟩ := h
  have hpow : (2 ^ i - 1) * 2 ^ (7 * (i + 1) + 1) = (2 ^ i - 1) * 2 * 2 ^ (7 * (i + 1)) := by rw [pow_succ]; ring
  rw [denoted, ← hlen, List.take_left, hlen, hbe, hpow, Nat.mul_add_mod_self_right, Nat.mod_eq_of_lt hm]

/-! The decoders, by the marker (R122, R142). -/

theorem bytesUsed_of_markerAt (b : List Byte) (i : Nat) (hi : i ≤ 18) (h : MarkerAt b i) : bytesUsed b = .ok (i + 1) := by
  have ⟨hlt, _, hzero⟩ := h
  obtain ⟨i', _, h', e⟩ | ⟨⟨_, hones⟩, _, _⟩ | ⟨⟨_, hones⟩, _⟩ := bytesUsed_cases b
  · rw [e, markerAt_unique b i' i h' h]
  · exact absurd (hones i hlt) (by simp [hzero])
  · exact absurd (hones i (by omega)) (by simp [hzero])

/-- The extended decoder, on a sequence that holds all the bytes its marker asks for. -/
theorem decodeExtendedBytes_of_markerAt (s : State) (htab : TablesHold s) (b : List Byte) (i : Nat) (hi : i ≤ 18) (hm : MarkerAt b i)
    (hl : i + 1 ≤ b.length) : decodeExtendedBytes (s.table .X) b = decodedValue .X (denoted b i) := by
  rw [decodeExtendedBytes, bytesUsed_of_markerAt b i hi hm]
  simp only
  rw [if_neg (by omega), Nat.add_sub_cancel, lower_eq_lowerBound s htab .X i (Nat.lt_succ_of_le hi), denoted]

/-- A marker that ends in byte 0 has `clo8` ones (R72). -/
theorem clo8_of_markerAt (b0 : Byte) (rest : List Byte) (i : Nat) (hi : i ≤ 7) (h : MarkerAt (b0 :: rest) i) : clo8 b0 = i := by
  have ⟨_, _, hzero⟩ := h
  have hne : b0 ≠ 0xFF#8 := by
    rintro rfl
    rw [bitAt_cons, if_pos (by omega)] at hzero
    revert hzero
    interval_cases i <;> decide
  exact markerAt_unique _ _ _ (markerAt_clo8 b0 rest hne).1 h

/-- The native decoder's payload: the low bits of byte 0, then the bytes after it (R122), is that of R70. -/
theorem native_payload (b0 : Byte) (rest : List Byte) (i : Nat) (hi : i ≤ 7) (hl : i ≤ rest.length) :
    b0.toNat % 2 ^ (7 - i) * 2 ^ (8 * i) + beNat (rest.take i) = beNat ((b0 :: rest).take (i + 1)) % 2 ^ (7 * (i + 1)) := by
  have hlen : (rest.take i).length = i := by simp [hl]
  have hlt : beNat (rest.take i) < 2 ^ (8 * i) := by simpa [hlen, pow_256] using beNat_lt (rest.take i)
  have hpow : 2 ^ (7 * (i + 1)) = 2 ^ (8 * i) * 2 ^ (7 - i) := by rw [← pow_add]; congr 1; omega
  rw [List.take_succ_cons, beNat, hlen, pow_256, hpow, Nat.mod_mul, Nat.add_comm (b0.toNat * _), Nat.add_mul_mod_self_right,
    Nat.add_mul_div_right _ _ (Nat.two_pow_pos _), Nat.mod_eq_of_lt hlt, Nat.div_eq_of_lt hlt, Nat.zero_add]
  ring

/-- The native decoder, on a sequence that holds all the bytes its marker asks for; its fast path is the case of band 0. -/
theorem decodeNativeBytes_of_markerAt (s : State) (htab : TablesHold s) (b : List Byte) (i : Nat) (hi : i ≤ 7) (hm : MarkerAt b i)
    (hl : i + 1 ≤ b.length) : decodeNativeBytes (s.table .N) b = decodedValue .N (denoted b i) := by
  cases b with
  | nil => simp at hl
  | cons b0 rest =>
    have hclo := clo8_of_markerAt b0 rest i hi hm
    rw [List.length_cons] at hl
    rw [denoted, ← native_payload b0 rest i hi (by omega), ← lower_eq_lowerBound s htab .N i (Nat.lt_succ_of_le hi), decodeNativeBytes]
    split
    · next hsmall =>
      have hband0 : ∀ b0 : Byte, b0.toNat < 0x80 → clo8 b0 = 0 := by decide
      obtain rfl : i = 0 := hclo.symm.trans (hband0 b0 hsmall)
      have hceil : ¬ceil .N < b0.toNat := not_lt.mpr (hsmall.le.trans (by decide))
      simp [lower, beNat, decodedValue, Nat.mod_eq_of_lt hsmall, hceil]
    · rw [hclo, decodeNativeLong, if_neg (by omega), if_neg (by omega)]

/-- `DEC.C`, on an input that holds all the bytes its marker asks for. -/
theorem exec_decOf_of_markerAt (c : Cls) (s : State) (htab : TablesHold s) (i : Nat) (hi : i < bands c) (hm : MarkerAt s.req.inp i)
    (hl : i + 1 ≤ s.req.inp.length) :
    exec (decOf c) s = s.finish (decodedValue c (denoted s.req.inp i)) fun v => Response.okR v := by
  cases c with
  | N =>
    rw [← decodeNativeBytes_of_markerAt s htab _ i (Nat.le_of_lt_succ hi) hm hl]
    rfl
  | X =>
    rw [← decodeExtendedBytes_of_markerAt s htab _ i (Nat.le_of_lt_succ hi) hm hl]
    rfl

/-- `DEC.C` of the bytes `ENC.C` gives for a value, whatever follows them, is that value (R123, R144). -/
theorem exec_decOf_wireBytes (c : Cls) (s : State) (htab : TablesHold s) (v : Nat) (hv : v ≤ ceil c) (rest : List Byte)
    (hin : s.req.inp = wireBytes (s.table c) v ++ rest) : exec (decOf c) s = .next (s.respond (Response.okR v)) := by
  obtain ⟨hi, hband, _⟩ := band_spec s htab c v hv
  have henc := wireBytes_isEncoding s htab c v _ hv hband
  have hm := sub_lowerBound_lt _ v hband
  rw [exec_decOf_of_markerAt c s htab (band (s.table c) v) hi, hin, denoted_append_of_isEncoding henc hm, Nat.add_sub_cancel' hband.1,
    decodedValue, if_neg (not_lt.mpr hv), State.finish]
  · rw [hin]
    exact markerAt_append _ _ _ (markerAt_of_isEncoding henc hm)
  · rw [hin, List.length_append, wireBytes_length]
    exact Nat.le_add_right _ _

end Sys2Proof.Machine

/-! SUPPORT. Reading `DEST` after a store, and a script that does (spec 20_memory.md R42, R46, R49; 30_encoding.md R75). -/

namespace Sys2Proof.Machine

open Sys2Proof.Safety

theorem Memory.readBytes_add (m : List Host.Cell) (a n k : Nat) :
    Memory.readBytes m a (n + k) = Memory.readBytes m a n ++ Memory.readBytes m (a + n) k := by
  induction n generalizing a with
  | zero => rw [Nat.zero_add]; rfl
  | succ n ih => rw [Nat.add_right_comm, Memory.readBytes, Memory.readBytes, ih, List.cons_append, Nat.add_right_comm, Nat.add_assoc]

/-- The bytes stored are read back. -/
theorem Memory.readBytes_writeBytes (m : List Host.Cell) (a : Nat) (bs : List Byte) (h : Memory.wf m) :
    Memory.readBytes (Memory.writeBytes m a bs) a bs.length = bs := by
  refine List.ext_getElem (Memory.readBytes_length ..) fun k hk hk' => ?_
  rw [← List.getD_eq_getElem _ 0#8 hk, Memory.readBytes_getD _ _ _ _ hk', Memory.read_writeBytes _ _ _ _ h, if_pos (by omega),
    Nat.add_sub_cancel_left, List.getD_eq_getElem _ _ hk']

/-- A range that begins where bytes were stored begins with these bytes. -/
theorem Memory.readBytes_writeBytes_append (m : List Host.Cell) (a : Nat) (bs : List Byte) (n : Nat) (h : Memory.wf m)
    (hn : bs.length ≤ n) : ∃ rest, Memory.readBytes (Memory.writeBytes m a bs) a n = bs ++ rest := by
  obtain ⟨k, rfl⟩ := Nat.exists_eq_add_of_le hn
  exact ⟨_, by rw [Memory.readBytes_add, Memory.readBytes_writeBytes m a bs h]⟩

theorem encodeToDest_ok (c : Cls) (s : State) (v : Nat) (ha : s.req.a = v) (hv : v ≤ ceil c)
    (hcap : s.req.off + maxLen c ≤ s.destLen) :
    encodeToDest c s = .next { s with resp := Response.okLen (wireBytes (s.table c) v).length,
                                      dest := Memory.writeBytes s.dest s.req.off (wireBytes (s.table c) v) } := by
  rw [encodeToDest, if_neg (not_lt.mpr hcap), encodeA, ha, unsignedOperand_ok c v hv]

/-! The two lines of the script. -/

theorem decodeCmd_encodeCmd_enciOf (c : Cls) : decodeCmd (encodeCmd (enciOf c)) = enciOf c := by cases c <;> decide

theorem decodeCmd_encodeCmd_decOf (c : Cls) : decodeCmd (encodeCmd (decOf c)) = decOf c := by cases c <;> decide

/-- The line `ENCI.C A=v, OFF=off`. -/
abbrev enciLine (c : Cls) (v : Int) (off : Nat) : Line := { cmd := encodeCmd (enciOf c), a := .lit v, inp := .bytes [], off := off }

/-- The line `DEC.C IN=src`. -/
abbrev decLine (c : Cls) (src : InSource) : Line := { cmd := encodeCmd (decOf c), a := .lit 0, inp := src, off := 0 }

theorem present_enciLine (s : State) (c : Cls) (v : Int) (off : Nat) :
    present (enciLine c v off) s = .ok { s with req := { cmd := encodeCmd (enciOf c), a := v, inp := [], off := off } } := by
  simp only [present, decodeCmd_encodeCmd_enciOf]
  cases c <;> rfl

theorem present_decLine (s : State) (c : Cls) (src : InSource) (bs : List Byte) (h : resolveIn src s = .ok bs) :
    present (decLine c src) s = .ok { s with req := { cmd := encodeCmd (decOf c), a := 0, inp := bs, off := 0 } } := by
  have hin : presentIn (decOf c) src s = .ok bs := by cases c <;> exact h
  simp only [present, decodeCmd_encodeCmd_decOf, hin]
  cases c <;> rfl

theorem step_enciLine (s : State) (c : Cls) (v off : Nat) (rest : List Item) (hs : s.script = .line (enciLine c v off) :: rest)
    (hv : v ≤ ceil c) (hcap : off + maxLen c ≤ s.destLen) :
    step s = .next
      { s with
        script := rest
        req := { cmd := encodeCmd (enciOf c), a := v, inp := [], off := off }
        resp := Response.okLen (wireBytes (s.table c) v).length
        dest := Memory.writeBytes s.dest off (wireBytes (s.table c) v) } := by
  rw [step_line s _ _ rest hs (present_enciLine _ c v off), decodeCmd_encodeCmd_enciOf, exec_enciOf]
  exact encodeToDest_ok c { s with script := rest, req := _ } v rfl hv hcap

theorem step_decLine (s : State) (c : Cls) (v : Nat) (src : InSource) (tail : List Byte) (rest : List Item)
    (hs : s.script = .line (decLine c src) :: rest) (htab : TablesHold s) (hv : v ≤ ceil c)
    (hin : resolveIn src { s with script := rest } = .ok (wireBytes (s.table c) v ++ tail)) :
    step s = .next
      { s with
        script := rest
        req := { cmd := encodeCmd (decOf c), a := 0, inp := wireBytes (s.table c) v ++ tail, off := 0 }
        resp := Response.okR v } := by
  rw [step_line s _ _ rest hs (present_decLine _ c src _ hin), decodeCmd_encodeCmd_decOf]
  exact exec_decOf_wireBytes c { s with script := rest, req := _ } htab v hv tail rfl

/-- `DEST[j .. j+n-1]` as an operand is the `n` bytes from `j` on, where the buffer has them (R75; log 9). -/
theorem resolveIn_dest (s : State) (j n : Nat) (h0 : 0 < n) (hn : j + n ≤ s.destLen) :
    resolveIn (.dest j (j + n - 1)) s = .ok (Memory.readBytes s.dest j n) := by
  rw [resolveIn, if_neg (by omega), if_pos (by omega), show j + n - 1 + 1 - j = n by omega]

theorem maxLen_pos (c : Cls) : 0 < maxLen c := by cases c <;> decide

theorem run_two (s t u : State) (h : step s = .next t) (h' : step t = .next u) : Host.Core.run core 2 s = .next u := by
  simp only [Host.Core.run, core, h, h']

/-- Settles O55: what `DEC.C` is given begins with what `ENCI.C` stored (`readBytes_writeBytes_append`), which decodes to the value
(`exec_decOf_wireBytes`). -/
theorem destScriptRoundTrip : Obligations.DestScriptRoundTrip := by
  intro s c v off hs hv hcap
  rw [← ceil_eq_ceiling] at hv
  have hlen := (wireBytes_length_le s hs.tables c v hv).1
  obtain ⟨tail, hread⟩ := Memory.readBytes_writeBytes_append s.dest off _ (maxLen c) hs.dest.1 hlen
  have hin := (resolveIn_dest { s with dest := Memory.writeBytes s.dest off (wireBytes (s.table c) v) } off (maxLen c)
    (maxLen_pos c) hcap).trans (congrArg Except.ok hread)
  exact ⟨_, run_two _ _ _ (step_enciLine _ c v off _ rfl hv hcap) (step_decLine _ c v _ tail [] rfl hs.tables hv hin), rfl, rfl⟩

end Sys2Proof.Machine

/-! SUPPORT. The command word's fields, and that decoder and encoder undo each other (spec 30_encoding.md R60 to R67). -/

namespace Sys2Proof

/-! A command word and its fields (R60). -/

@[simp] theorem cmdRsv_cmdWord (rsv : BitVec 4) (x : BitVec 1) (func : BitVec 3) : cmdRsv (cmdWord rsv x func) = rsv :=
  BitVec.extractLsb'_append_eq_left

@[simp] theorem cmdX_cmdWord (rsv : BitVec 4) (x : BitVec 1) (func : BitVec 3) : cmdX (cmdWord rsv x func) = x := by
  revert rsv x func
  decide

@[simp] theorem cmdFunc_cmdWord (rsv : BitVec 4) (x : BitVec 1) (func : BitVec 3) : cmdFunc (cmdWord rsv x func) = func := by
  revert rsv x func
  decide

/-- A command word is made of its three fields, no bit left out. -/
@[simp] theorem cmdWord_fields (w : Byte) : cmdWord (cmdRsv w) (cmdX w) (cmdFunc w) = w := by
  revert w
  decide

/-! The decoder, by the fields: a set `RSV` bit decides first (R63). -/

theorem decodeCmd_of_rsv (w : Byte) (h : cmdRsv w ≠ 0#4) : decodeCmd w = .reservedRsv (cmdRsv w) (cmdX w) (cmdFunc w) := if_neg h

theorem decodeCmd_native (w : Byte) (hrsv : cmdRsv w = 0#4) (hx : cmdX w = 0#1) : decodeCmd w = decodeNative (cmdFunc w) := by
  rw [decodeCmd, if_pos hrsv, if_pos hx]

theorem decodeCmd_extended (w : Byte) (hrsv : cmdRsv w = 0#4) (hx : cmdX w ≠ 0#1) : decodeCmd w = decodeExtended (cmdFunc w) := by
  rw [decodeCmd, if_pos hrsv, if_neg hx]

/-- The words from `0x10` on are those with a set `RSV` bit (R67). -/
theorem cmdRsv_ne_zero_of_le (w : Byte) (h : 0x10 ≤ w.toNat) : cmdRsv w ≠ 0#4 := by
  intro h0
  have hnat := congrArg BitVec.toNat h0
  simp [cmdRsv] at hnat
  omega

theorem encodeCmd_decodeNative (func : BitVec 3) : encodeCmd (decodeNative func) = cmdWord 0#4 0#1 func := by
  revert func
  decide

theorem encodeCmd_decodeExtended (func : BitVec 3) : encodeCmd (decodeExtended func) = cmdWord 0#4 1#1 func := by
  revert func
  decide

theorem decodeNative_wf (func : BitVec 3) : (decodeNative func).WellFormed := by
  revert func
  decide

theorem decodeExtended_wf (func : BitVec 3) : (decodeExtended func).WellFormed := by
  revert func
  decide

/-- Decoding the word of a well-formed instruction gives the instruction: the named commands by their words in R65, a reserved word
by its fields. -/
theorem decodeCmd_encodeCmd (i : Instr) (h : i.WellFormed) : decodeCmd (encodeCmd i) = i := by
  cases i with
  | encN => exact decodeCmd_encN
  | enciN => exact decodeCmd_enciN
  | decN => exact decodeCmd_decN
  | bused => exact decodeCmd_bused
  | bcontN => exact decodeCmd_bcontN
  | zzeN => exact decodeCmd_zzeN
  | zzdN => exact decodeCmd_zzdN
  | btlN => exact decodeCmd_btlN
  | encX => exact decodeCmd_encX
  | enciX => exact decodeCmd_enciX
  | decX => exact decodeCmd_decX
  | bcontX => exact decodeCmd_bcontX
  | zzeX => exact decodeCmd_zzeX
  | zzdX => exact decodeCmd_zzdX
  | btlX => exact decodeCmd_btlX
  | reservedBusedX => exact decodeCmd_reservedBusedX
  | reservedRsv rsv x func =>
    have hrsv : rsv ≠ 0#4 := by simpa [Instr.WellFormed, Instr.wf] using h
    rw [encodeCmd, decodeCmd_of_rsv _ (by rwa [cmdRsv_cmdWord]), cmdRsv_cmdWord, cmdX_cmdWord, cmdFunc_cmdWord]

/-- Every word decodes to a well-formed instruction whose word it is (R60, R63). -/
theorem encodeCmd_decodeCmd (w : Byte) : (decodeCmd w).WellFormed ∧ encodeCmd (decodeCmd w) = w := by
  by_cases hrsv : cmdRsv w = 0#4
  · by_cases hx : cmdX w = 0#1
    · rw [decodeCmd_native w hrsv hx, encodeCmd_decodeNative, ← hrsv, ← hx, cmdWord_fields]
      exact ⟨decodeNative_wf _, rfl⟩
    · have hx1 : cmdX w = 1#1 := (BitVec.eq_zero_or_eq_one _).resolve_left hx
      rw [decodeCmd_extended w hrsv hx, encodeCmd_decodeExtended, ← hrsv, ← hx1, cmdWord_fields]
      exact ⟨decodeExtended_wf _, rfl⟩
  · rw [decodeCmd_of_rsv w hrsv]
    exact ⟨by simpa [Instr.WellFormed, Instr.wf] using hrsv, cmdWord_fields w⟩

/-- Settles O2, by `decodeCmd_encodeCmd`. -/
theorem decodeOfEncodeIsTheInstruction : Obligations.DecodeOfEncodeIsTheInstruction := by
  intro i rest h
  rw [encode, List.singleton_append, decode, decodeCmd_encodeCmd i h]

/-- Settles O3: the word's own instruction (`encodeCmd_decodeCmd`), the only one because decoding gives it back
(`decodeCmd_encodeCmd`). -/
theorem everyWordIsOneInstruction : Obligations.EveryWordIsOneInstruction := by
  intro w rest
  obtain ⟨hwf, henc⟩ := encodeCmd_decodeCmd w
  refine ⟨decodeCmd w, rfl, hwf, by rw [encode, henc], fun j hj hw => ?_⟩
  obtain rfl : encodeCmd j = w := by simpa [encode] using hw
  exact (decodeCmd_encodeCmd j hj).symm

/-- Settles O1: the map by the decoder's own laws, the rest by `decodeCmd_of_rsv`. -/
theorem commandMapDecodes : Obligations.CommandMapDecodes :=
  ⟨decodeCmd_encN, decodeCmd_enciN, decodeCmd_decN, decodeCmd_bused, decodeCmd_bcontN, decodeCmd_zzeN, decodeCmd_zzdN,
    decodeCmd_btlN, decodeCmd_encX, decodeCmd_enciX, decodeCmd_decX, decodeCmd_reservedBusedX, decodeCmd_bcontX, decodeCmd_zzeX,
    decodeCmd_zzdX, decodeCmd_btlX, fun w h => ⟨_, _, _, decodeCmd_of_rsv w (cmdRsv_ne_zero_of_le w h)⟩⟩

/-! Reserved words (R67). -/

theorem decodeCmd_reserved (w : Byte) (h : w = 0x0B#8 ∨ 0x10 ≤ w.toNat) :
    decodeCmd w = .reservedBusedX ∨ ∃ rsv x func, decodeCmd w = .reservedRsv rsv x func := by
  obtain rfl | h := h
  · exact .inl decodeCmd_reservedBusedX
  · exact .inr ⟨_, _, _, decodeCmd_of_rsv w (cmdRsv_ne_zero_of_le w h)⟩

/-- Settles O43: such a word is one of the two reserved instructions, and both read nothing and raise. -/
theorem reservedWordsRaiseIllegalCommand : Obligations.ReservedWordsRaiseIllegalCommand := by
  refine ⟨fun w s h => ?_, fun rsv x func s => ⟨rfl, rfl⟩⟩
  obtain e | ⟨rsv, x, func, e⟩ := decodeCmd_reserved w h
  · rw [e]
    exact ⟨rfl, rfl, rfl, rfl⟩
  · rw [e]
    exact ⟨rfl, rfl, rfl, rfl⟩

end Sys2Proof

/-! SUPPORT. A pseudo-instruction as two transactions (spec 30_encoding.md R75, R76). -/

namespace Sys2Proof.Machine

open Sys2Proof.Safety

/-- Two lines make the same request: they name the same command word and the same operands wherever the command reads them (R64, R75). -/
structure Line.SameRequest (l l' : Line) : Prop where
  cmd : l.cmd = l'.cmd
  a : readsA (decodeCmd l.cmd) = true → l.a = l'.a
  inp : readsIn (decodeCmd l.cmd) = true → l.inp = l'.inp
  off : readsOff (decodeCmd l.cmd) = true → l.off = l'.off

theorem presentA_congr (i : Instr) (src src' : ASource) (s : State) (h : readsA i = true → src = src') :
    presentA i src s = presentA i src' s := by
  unfold presentA
  split
  · next hr => rw [h hr]
  · rfl

theorem presentIn_congr (i : Instr) (src src' : InSource) (s : State) (h : readsIn i = true → src = src') :
    presentIn i src s = presentIn i src' s := by
  unfold presentIn
  split
  · next hr => rw [h hr]
  · rfl

theorem presentOff_congr (i : Instr) (off off' : Nat) (h : readsOff i = true → off = off') : presentOff i off = presentOff i off' := by
  unfold presentOff
  split
  · next hr => rw [h hr]
  · rfl

/-- An operand the command does not read has no effect (R75). -/
theorem Line.SameRequest.present_eq {l l' : Line} (h : l.SameRequest l') (s : State) : present l s = present l' s := by
  rw [present, present, ← h.cmd, presentA_congr _ _ _ s h.a, presentIn_congr _ _ _ s h.inp, presentOff_congr _ _ _ h.off]

/-- Lines that make the same request run alike from the head of a script: both are presented, or both stop the host. -/
theorem Line.SameRequest.step_eq {l l' : Line} (h : l.SameRequest l') (s : State) (rest : List Item) :
    step { s with script := .line l :: rest } = step { s with script := .line l' :: rest } := by
  have hpresent := h.present_eq { s with script := rest }
  cases hp : present l { s with script := rest } with
  | error f =>
    rw [step_stop { s with script := .line l :: rest } _ rest l none f rfl rfl hp,
      step_stop { s with script := .line l' :: rest } _ rest l' none f rfl rfl (hpresent.symm.trans hp)]
  | ok s' =>
    rw [step_line { s with script := .line l :: rest } s' l rest rfl hp,
      step_line { s with script := .line l' :: rest } s' l' rest rfl (hpresent.symm.trans hp), h.cmd]

/-- An item that begins with a line the host can present runs that line's command, and then what it queues (R76). -/
theorem step_item (s s' : State) (item : Item) (rest : List Item) (l : Line) (th : Option Line) (hs : s.script = item :: rest)
    (hitem : fetchItem item { s with script := rest } = issueLine l th { s with script := rest })
    (hp : present l { s with script := rest } = .ok s') : step s = andThen th (exec (decodeCmd l.cmd) s') := by
  rw [step, fetch_of_script s item rest hs, hitem, issueLine_of_ok l th _ s' hp]

/-- A command leaves the script as it was when its request was presented. -/
theorem exec_present_script (l : Line) (i : Instr) (s s' t : State) (hp : present l s = .ok s') (h : exec i s' = .next t) :
    t.script = s.script := by
  rw [exec_frame i s' t h, (present_sets l s s' hp).1]

theorem isOk_iff (p : Response) : p.isOk = true ↔ p.status = some 0#3 := by
  rw [Response.isOk, decide_eq_true_iff]
  rfl

theorem queueIfOk_of_ok (l : Line) (s : State) (h : s.resp.status = some 0#3) :
    queueIfOk (some l) s = { s with script := .line l :: s.script } := if_pos ((isOk_iff _).mpr h)

theorem queueIfOk_of_not_ok (l : Line) (s : State) (h : s.resp.status ≠ some 0#3) : queueIfOk (some l) s = s :=
  if_neg (mt (isOk_iff _).mp h)

/-- The two transactions of an item that runs `l` and then `l'`, the second only after `OK`; `k` and `k'` are lines that make the same
requests. -/
theorem step_two_transactions {l k l' k' : Line} (s s' t : State) (item : Item) (rest : List Item) (hl : k.SameRequest l)
    (hl' : l'.SameRequest k') (hs : s.script = item :: rest)
    (hitem : fetchItem item { s with script := rest } = issueLine l (some l') { s with script := rest })
    (hp : present k { s with script := rest } = .ok s') (h : exec (decodeCmd k.cmd) s' = .next t) :
    (t.resp.status ≠ some 0#3 → step s = .next t) ∧
      (t.resp.status = some 0#3 → ∃ u : State, step s = .next u ∧ u = { t with script := u.script } ∧
        step u = step { t with script := .line k' :: rest }) := by
  have hscript : t.script = rest := exec_present_script k _ _ s' t hp h
  have hstep : step s = .next (queueIfOk (some l') t) := by
    rw [step_item s s' item rest l (some l') hs hitem (hl.present_eq _ ▸ hp), ← hl.cmd, h, andThen]
  refine ⟨fun hne => ?_, fun hok => ⟨_, hstep, ?_, ?_⟩⟩
  · rw [hstep, queueIfOk_of_not_ok l' t hne]
  · rw [queueIfOk_of_ok l' t hok]
  · rw [queueIfOk_of_ok l' t hok, hscript, hl'.step_eq t rest]

/-! The lines of the pseudo-instructions: their words (R65, R76), and what their commands read (R64). -/

theorem encWord_eq (c : Cls) : encWord c = encodeCmd (encOf c) := by cases c <;> rfl
theorem enciWord_eq (c : Cls) : enciWord c = encodeCmd (enciOf c) := by cases c <;> rfl
theorem decWord_eq (c : Cls) : decWord c = encodeCmd (decOf c) := by cases c <;> rfl
theorem zzeWord_eq (c : Cls) : zzeWord c = encodeCmd (zzeOf c) := by cases c <;> rfl
theorem zzdWord_eq (c : Cls) : zzdWord c = encodeCmd (zzdOf c) := by cases c <;> rfl

theorem decodeCmd_encodeCmd_encOf (c : Cls) : decodeCmd (encodeCmd (encOf c)) = encOf c := by cases c <;> decide
theorem decodeCmd_encodeCmd_zzeOf (c : Cls) : decodeCmd (encodeCmd (zzeOf c)) = zzeOf c := by cases c <;> decide
theorem decodeCmd_encodeCmd_zzdOf (c : Cls) : decodeCmd (encodeCmd (zzdOf c)) = zzdOf c := by cases c <;> decide

/-- The command reads `A` and no other operand. -/
abbrev ReadsOnlyA (i : Instr) : Prop := readsA i = true ∧ readsIn i = false ∧ readsOff i = false

theorem readsOnlyA_encOf (c : Cls) : ReadsOnlyA (encOf c) := by cases c <;> decide
theorem readsOnlyA_zzeOf (c : Cls) : ReadsOnlyA (zzeOf c) := by cases c <;> decide
theorem readsOnlyA_zzdOf (c : Cls) : ReadsOnlyA (zzdOf c) := by cases c <;> decide
theorem readsIn_enciOf (c : Cls) : readsIn (enciOf c) = false := by cases c <;> rfl
theorem readsOnlyIn_decOf (c : Cls) : readsA (decOf c) = false ∧ readsOff (decOf c) = false := by cases c <;> decide

/-- Lines with the word of one command that agree on what it reads. -/
theorem Line.sameRequest_of_cmd {l l' : Line} {i : Instr} (hi : decodeCmd (encodeCmd i) = i) (hl : l.cmd = encodeCmd i)
    (hl' : l'.cmd = encodeCmd i) (ha : readsA i = true → l.a = l'.a) (hin : readsIn i = true → l.inp = l'.inp)
    (hoff : readsOff i = true → l.off = l'.off) : l.SameRequest l' where
  cmd := hl.trans hl'.symm
  a := by rwa [hl, hi]
  inp := by rwa [hl, hi]
  off := by rwa [hl, hi]

theorem Line.sameRequest_of_readsOnlyA {l l' : Line} {i : Instr} (hreads : ReadsOnlyA i) (hi : decodeCmd (encodeCmd i) = i)
    (hl : l.cmd = encodeCmd i) (hl' : l'.cmd = encodeCmd i) (ha : l.a = l'.a) : l.SameRequest l' :=
  sameRequest_of_cmd hi hl hl' (fun _ => ha) (by simp [hreads]) (by simp [hreads])

theorem Line.sameRequest_enciOf {l l' : Line} (c : Cls) (hl : l.cmd = encodeCmd (enciOf c)) (hl' : l'.cmd = encodeCmd (enciOf c))
    (ha : l.a = l'.a) (hoff : l.off = l'.off) : l.SameRequest l' :=
  sameRequest_of_cmd (decodeCmd_encodeCmd_enciOf c) hl hl' (fun _ => ha) (by simp [readsIn_enciOf]) fun _ => hoff

theorem Line.sameRequest_decOf {l l' : Line} (c : Cls) (hl : l.cmd = encodeCmd (decOf c)) (hl' : l'.cmd = encodeCmd (decOf c))
    (hin : l.inp = l'.inp) : l.SameRequest l' :=
  sameRequest_of_cmd (decodeCmd_encodeCmd_decOf c) hl hl' (by simp [readsOnlyIn_decOf]) (fun _ => hin) (by simp [readsOnlyIn_decOf])

/-- Settles O10: each pseudo-instruction begins with a line that queues another (`step_two_transactions`), and both make the requests
that the statement names. -/
theorem pseudoInstructionExpands : Obligations.PseudoInstructionExpands := by
  intro s s' t c item rest l1 l2 hitem hs hp h
  obtain ⟨a, rfl, hcmd1, ha1, hcmd2, ha2⟩ | ⟨a, o, rfl, hcmd1, ha1, hcmd2, ha2, hoff2⟩ |
    ⟨b, rfl, hcmd1, hin1, hcmd2, ha2⟩ := hitem
  · refine step_two_transactions s s' t _ rest ?_ ?_ hs rfl hp h
    · exact Line.sameRequest_of_readsOnlyA (readsOnlyA_zzeOf c) (decodeCmd_encodeCmd_zzeOf c) hcmd1 (zzeWord_eq c) ha1
    · exact Line.sameRequest_of_readsOnlyA (readsOnlyA_encOf c) (decodeCmd_encodeCmd_encOf c) (encWord_eq c) hcmd2 ha2.symm
  · refine step_two_transactions s s' t _ rest ?_ ?_ hs rfl hp h
    · exact Line.sameRequest_of_readsOnlyA (readsOnlyA_zzeOf c) (decodeCmd_encodeCmd_zzeOf c) hcmd1 (zzeWord_eq c) ha1
    · exact Line.sameRequest_enciOf c (enciWord_eq c) hcmd2 ha2.symm hoff2.symm
  · refine step_two_transactions s s' t _ rest ?_ ?_ hs rfl hp h
    · exact Line.sameRequest_decOf c hcmd1 (decWord_eq c) hin1
    · exact Line.sameRequest_of_readsOnlyA (readsOnlyA_zzdOf c) (decodeCmd_encodeCmd_zzdOf c) (zzdWord_eq c) hcmd2 ha2.symm

end Sys2Proof.Machine

/-! SUPPORT. The bit string of an encoding, and which byte sequences a decoder accepts (spec 30_encoding.md R68, R72 to R74). -/

namespace Sys2Proof.Machine

open Sys2Proof.Safety

/-! The payload's bits (R68). -/

/-- Behind the marker, the bits of an encoding are those of the band-local magnitude. -/
theorem bitAt_payload_of_isEncoding {i m : Nat} {bs : List Byte} (h : IsEncoding i m bs) (hm : m < 2 ^ (7 * (i + 1))) (j : Nat)
    (hj : j < 7 * (i + 1)) : bitAt bs (i + 1 + j) = m.testBit (7 * (i + 1) - 1 - j) := by
  obtain ⟨hlen, hbe⟩ := h
  have hlt : m < 2 ^ (7 * (i + 1) + 1) := hm.trans (Nat.pow_lt_pow_succ one_lt_two)
  rw [bitAt_eq_testBit bs _ (by omega), hbe, hlen, Nat.mul_comm, Nat.testBit_two_pow_mul_add _ hlt, if_pos (by omega)]
  congr 1
  omega

/-- `ENC.C` of a value of the class (R120, R140). -/
theorem exec_encOf_ok (c : Cls) (s : State) (v : Nat) (ha : s.req.a = v) (hv : v ≤ ceil c) :
    exec (encOf c) s = .next (s.respond (Response.okOut (wireBytes (s.table c) v))) := by
  have hexec : exec (encOf c) s = encodeToOut c s := by cases c <;> rfl
  rw [hexec, encodeToOut, encodeA, ha, unsignedOperand_ok c v hv]
  rfl

/-- Settles O27: the bytes are the encoding in integer form (`wireBytes_isEncoding`), whose bits are the marker's
(`markerAt_of_isEncoding`) and the payload's (`bitAt_payload_of_isEncoding`). -/
theorem encodingIsMarkerThenPayload : Obligations.EncodingIsMarkerThenPayload := by
  intro s c v i htab ha hv hband
  rw [← ceil_eq_ceiling] at hv
  have henc := wireBytes_isEncoding s htab c v i hv hband
  have hm := sub_lowerBound_lt i v hband
  exact ⟨_, exec_encOf_ok c s v ha hv, henc.1, markerAt_of_isEncoding henc hm, bitAt_payload_of_isEncoding henc hm⟩

/-! Where a marker ends, byte by byte (R72). -/

theorem ne_full_of_clo8_le (b0 : Byte) (h : clo8 b0 ≤ 7) : b0 ≠ 0xFF#8 := by
  rintro rfl
  exact absurd h (by decide)

/-- A marker of at most seven ones ends in byte 0. -/
theorem markerAt_iff_clo8 (b : List Byte) (i : Nat) (hi : i ≤ 7) : MarkerAt b i ↔ ∃ b0 r, b = b0 :: r ∧ clo8 b0 = i := by
  constructor
  · intro h
    cases b with
    | nil => exact absurd h.1 (Nat.not_lt_zero i)
    | cons b0 r => exact ⟨b0, r, rfl, clo8_of_markerAt b0 r i hi h⟩
  · rintro ⟨b0, r, rfl, rfl⟩
    exact (markerAt_clo8 b0 r (ne_full_of_clo8_le b0 hi)).1

/-- A marker of eight ones or more fills byte 0 and goes on behind it. -/
theorem markerAt_add_eight_iff (b : List Byte) (i : Nat) : MarkerAt b (i + 8) ↔ ∃ r, b = 0xFF#8 :: r ∧ MarkerAt r i := by
  constructor
  · intro h
    cases b with
    | nil => exact absurd h.1 (Nat.not_lt_zero _)
    | cons b0 r =>
      by_cases hfull : b0 = 0xFF#8
      · subst hfull
        exact ⟨r, rfl, (markerAt_full r i).mp h⟩
      · obtain ⟨hm, hle⟩ := markerAt_clo8 b0 r hfull
        have := markerAt_unique _ _ _ h hm
        omega
  · rintro ⟨r, rfl, hr⟩
    exact (markerAt_full r i).mpr hr

/-- Settles O28: byte 0 (`markerAt_iff_clo8`), behind one or two full bytes (`markerAt_add_eight_iff`). -/
theorem lengthFromLeadingBytes : Obligations.LengthFromLeadingBytes := by
  refine fun b i => ⟨markerAt_iff_clo8 b i, fun hlo hhi => ?_, fun hlo hhi => ?_⟩
  · obtain ⟨k, rfl⟩ := Nat.exists_eq_add_of_le' hlo
    rw [markerAt_add_eight_iff]
    constructor
    · rintro ⟨r, rfl, hr⟩
      obtain ⟨b1, r, rfl, rfl⟩ := (markerAt_iff_clo8 r k (by omega)).mp hr
      exact ⟨b1, r, rfl, Nat.add_comm _ _⟩
    · rintro ⟨b1, r, rfl, hk⟩
      exact ⟨b1 :: r, rfl, (markerAt_iff_clo8 _ k (by omega)).mpr ⟨b1, r, rfl, by omega⟩⟩
  · obtain ⟨k, rfl⟩ := Nat.exists_eq_add_of_le' hlo
    rw [show k + 16 = k + 8 + 8 from rfl, markerAt_add_eight_iff]
    simp only [markerAt_add_eight_iff]
    constructor
    · rintro ⟨_, rfl, r, rfl, hr⟩
      obtain ⟨b2, r, rfl, rfl⟩ := (markerAt_iff_clo8 r k (by omega)).mp hr
      exact ⟨b2, r, rfl, by omega⟩
    · rintro ⟨b2, r, rfl, hk⟩
      exact ⟨_, rfl, b2 :: r, rfl, (markerAt_iff_clo8 _ k (by omega)).mpr ⟨b2, r, rfl, by omega⟩⟩

/-! Which byte sequences a decoder accepts (R73). -/

/-- The marker of `b` ends at a band of the class, and `b` holds all the bytes it asks for (R73). -/
structure Framed (c : Cls) (b : List Byte) (i : Nat) : Prop where
  band : i < bands c
  marker : MarkerAt b i
  length : i + 1 ≤ b.length

theorem decodeExtendedBytes_of_not_framed (t : List Nat) (b : List Byte) (h : ¬∃ i, Framed .X b i) :
    ∃ e, (e = .precisionLoss ∨ e = .unexpectedEnd) ∧ decodeExtendedBytes t b = .raise e := by
  unfold decodeExtendedBytes
  obtain ⟨i, hi, hm, e⟩ | ⟨_, _, e⟩ | ⟨_, e⟩ := bytesUsed_cases b
  · have hshort : b.length < i + 1 := not_le.mp fun hl => h ⟨i, Nat.lt_succ_of_le hi, hm, hl⟩
    rw [e]
    exact ⟨_, .inr rfl, if_pos hshort⟩
  · rw [e]
    exact ⟨_, .inr rfl, rfl⟩
  · rw [e]
    exact ⟨_, .inl rfl, rfl⟩

theorem clo8_of_lt (b0 : Byte) (h : b0.toNat < 0x80) : clo8 b0 = 0 := by
  revert b0
  decide

theorem decodeNativeBytes_of_clo8_pos (t : List Nat) (b0 : Byte) (rest : List Byte) (h : 0 < clo8 b0) :
    decodeNativeBytes t (b0 :: rest) = decodeNativeLong t b0 rest (clo8 b0) :=
  if_neg fun hlt => h.ne' (clo8_of_lt b0 hlt)

theorem decodeNativeBytes_of_not_framed (t : List Nat) (b : List Byte) (h : ¬∃ i, Framed .N b i) :
    ∃ e, (e = .precisionLoss ∨ e = .unexpectedEnd) ∧ decodeNativeBytes t b = .raise e := by
  cases b with
  | nil => exact ⟨_, .inr rfl, rfl⟩
  | cons b0 rest =>
    by_cases hfull : b0 = 0xFF#8
    · have hclo : clo8 b0 = 8 := hfull ▸ rfl
      rw [decodeNativeBytes_of_clo8_pos t b0 rest (by omega), decodeNativeLong, hclo, if_pos rfl]
      split
      · exact ⟨_, .inr rfl, rfl⟩
      · exact ⟨_, .inl rfl, rfl⟩
    · obtain ⟨hm, hle⟩ := markerAt_clo8 b0 rest hfull
      have hshort : rest.length + 1 < clo8 b0 + 1 := not_le.mp fun hl => h ⟨_, Nat.lt_succ_of_le hle, hm, hl⟩
      rw [decodeNativeBytes_of_clo8_pos t b0 rest (by omega), decodeNativeLong, if_pos hshort]
      exact ⟨_, .inr rfl, rfl⟩

/-- `DEC.C` of any other input ends with `PrecisionLoss` or `UnexpectedEnd`, whatever the tables hold. -/
theorem exec_decOf_of_not_framed (c : Cls) (s : State) (h : ¬∃ i, Framed c s.req.inp i) :
    ∃ e, (e = .precisionLoss ∨ e = .unexpectedEnd) ∧ exec (decOf c) s = .next (s.raise e) := by
  cases c with
  | N =>
    obtain ⟨e, he, hdec⟩ := decodeNativeBytes_of_not_framed (s.table .N) _ h
    exact ⟨e, he, (execDecN_eq s).trans (by rw [hdec]; rfl)⟩
  | X =>
    obtain ⟨e, he, hdec⟩ := decodeExtendedBytes_of_not_framed (s.table .X) _ h
    exact ⟨e, he, (execDecX_eq s).trans (by rw [hdec]; rfl)⟩

/-- Everything `DEC.C` can do: answer the value that a framed input denotes, or raise one of two errors (R73). -/
theorem exec_decOf_cases (c : Cls) (s : State) (htab : TablesHold s) :
    (∃ i, Framed c s.req.inp i ∧ denoted s.req.inp i ≤ ceil c ∧
      exec (decOf c) s = .next (s.respond (Response.okR (denoted s.req.inp i)))) ∨
    ((¬∃ i, Framed c s.req.inp i ∧ denoted s.req.inp i ≤ ceil c) ∧
      ∃ e, (e = .precisionLoss ∨ e = .unexpectedEnd) ∧ exec (decOf c) s = .next (s.raise e)) := by
  by_cases hframed : ∃ i, Framed c s.req.inp i
  · obtain ⟨i, hi⟩ := hframed
    have hexec := exec_decOf_of_markerAt c s htab i hi.band hi.marker hi.length
    by_cases hv : denoted s.req.inp i ≤ ceil c
    · exact .inl ⟨i, hi, hv, by rw [hexec, decodedValue, if_neg (not_lt.mpr hv), State.finish]⟩
    · refine .inr ⟨fun ⟨j, hj, hle⟩ => hv (markerAt_unique _ _ _ hj.marker hi.marker ▸ hle), _, .inl rfl, ?_⟩
      rw [hexec, decodedValue, if_pos (not_le.mp hv), State.finish]
  · exact .inr ⟨fun ⟨i, hi, _⟩ => hframed ⟨i, hi⟩, exec_decOf_of_not_framed c s hframed⟩

/-- Settles O29, by `exec_decOf_cases`; the band of a framed input is the one its marker gives (`markerAt_unique`). -/
theorem decoderAcceptsExactlyWellFormed : Obligations.DecoderAcceptsExactlyWellFormed := by
  intro s c htab
  rw [← ceil_eq_ceiling]
  obtain ⟨i, hi, hv, hexec⟩ | ⟨hnone, e, he, hexec⟩ := exec_decOf_cases c s htab
  · refine ⟨fun j _ hm _ _ => ?_, fun hnone => absurd ⟨i, hi.band, hi.marker, hi.length, hv⟩ hnone⟩
    rw [markerAt_unique _ j i hm hi.marker]
    exact hexec
  · refine ⟨fun j hj hm hl hv => absurd ⟨j, ⟨hj, hm, hl⟩, hv⟩ hnone, fun _ => ?_⟩
    obtain rfl | rfl := he
    · exact .inl hexec
    · exact .inr hexec

/-! What a decoder accepts is what the encoder writes (R74). -/

theorem bitAt_take (b : List Byte) (n j : Nat) (hn : n ≤ b.length) (h : j < 8 * n) : bitAt (b.take n) j = bitAt b j := by
  rw [← bitAt_append_left (b.take n) (b.drop n) j (by simpa [hn] using h), List.take_append_drop]

/-- The marker stands in the bytes it asks for. -/
theorem markerAt_take (b : List Byte) (i : Nat) (h : MarkerAt b i) (hl : i + 1 ≤ b.length) : MarkerAt (b.take (i + 1)) i := by
  obtain ⟨_, hones, hzero⟩ := h
  refine ⟨by rw [List.length_take_of_le hl]; omega, fun j hj => ?_, ?_⟩
  · rw [bitAt_take b _ j hl (by omega)]
    exact hones j hj
  · rw [bitAt_take b _ i hl (by omega)]
    exact hzero

/-- As many bytes as their marker asks for are the integer form of its band and their own low `7L` bits (R68, R70): bit by bit, from
the back, the payload, the zero-bit and the ones. -/
theorem isEncoding_of_markerAt {i : Nat} {bs : List Byte} (hlen : bs.length = i + 1) (h : MarkerAt bs i) :
    IsEncoding i (beNat bs % 2 ^ (7 * (i + 1))) bs := by
  obtain ⟨_, hones, hzero⟩ := h
  have hlt : beNat bs % 2 ^ (7 * (i + 1)) < 2 ^ (7 * (i + 1)) := Nat.mod_lt _ (Nat.two_pow_pos _)
  have hlt' := hlt.trans (Nat.pow_lt_pow_succ one_lt_two)
  have htotal : beNat bs < 2 ^ (8 * (i + 1)) := by simpa [hlen, pow_256] using beNat_lt bs
  have hfront : ∀ k, k < 8 * (i + 1) → (beNat bs).testBit k = bitAt bs (8 * (i + 1) - 1 - k) := fun k hk => by
    rw [bitAt_eq_testBit bs _ (by omega), hlen]
    congr 1
    omega
  refine ⟨hlen, Nat.eq_of_testBit_eq fun k => ?_⟩
  rw [Nat.mul_comm (2 ^ i - 1), Nat.testBit_two_pow_mul_add _ hlt']
  obtain hk | rfl | hk := Nat.lt_trichotomy k (7 * (i + 1))
  · rw [if_pos (by omega), Nat.testBit_mod_two_pow, decide_eq_true hk, Bool.true_and]
  · rw [if_pos (by omega), Nat.testBit_lt_two_pow hlt, hfront _ (by omega), show 8 * (i + 1) - 1 - 7 * (i + 1) = i by omega]
    exact hzero
  · rw [if_neg (by omega), Nat.testBit_two_pow_sub_one]
    by_cases hin : k < 8 * (i + 1)
    · rw [hfront k hin, hones _ (by omega), decide_eq_true (by omega)]
    · rw [Nat.testBit_lt_two_pow (htotal.trans_le (Nat.pow_le_pow_right Nat.two_pos (not_lt.mp hin))), decide_eq_false (by omega)]

/-- What a framed input denotes lies in the band of its marker (R70, R100). -/
theorem denoted_inBand (b : List Byte) (i : Nat) : InBand i (denoted b i) := by
  have hsize := cutoff_sub_lowerBound i
  have hlt : beNat (b.take (i + 1)) % 2 ^ (7 * (i + 1)) < 2 ^ (7 * (i + 1)) := Nat.mod_lt _ (Nat.two_pow_pos _)
  unfold denoted
  exact ⟨Nat.le_add_right _ _, by omega⟩

/-- The encoder's bytes for what a framed input of the class denotes are the bytes its marker asks for: both have the same integer
form. -/
theorem wireBytes_denoted (c : Cls) (s : State) (htab : TablesHold s) (b : List Byte) (i : Nat) (hb : Framed c b i)
    (hv : denoted b i ≤ ceil c) : wireBytes (s.table c) (denoted b i) = b.take (i + 1) := by
  obtain ⟨_, hm, hl⟩ := hb
  obtain ⟨hlen, hbe⟩ := wireBytes_isEncoding s htab c _ i hv (denoted_inBand b i)
  obtain ⟨hlen', hbe'⟩ := isEncoding_of_markerAt (List.length_take_of_le hl) (markerAt_take b i hm hl)
  refine beNat_injective _ _ (hlen.trans hlen'.symm) ?_
  rw [hbe, hbe', denoted, Nat.add_sub_cancel_left]

/-- Settles O30: an answer in `R` is what a framed input denotes (`exec_decOf_cases`), which the encoder writes as the input's first
bytes (`wireBytes_denoted`). -/
theorem acceptedEncodingIsCanonical : Obligations.AcceptedEncodingIsCanonical := by
  intro s t c r htab h hr
  obtain ⟨i, hi, hv, hexec⟩ | ⟨_, e, _, hexec⟩ := exec_decOf_cases c s htab
  · cases hexec.symm.trans h
    obtain rfl : (denoted s.req.inp i : Int) = r := by simpa using hr
    refine ⟨_, exec_encOf_ok c (withA s (denoted s.req.inp i)) _ rfl hv, ?_⟩
    have hbytes := wireBytes_denoted c (withA s (denoted s.req.inp i)) htab _ i hi hv
    rw [hbytes]
    exact ⟨_, List.take_append_drop (i + 1) s.req.inp⟩
  · cases hexec.symm.trans h
    simp at hr

end Sys2Proof.Machine

/-! SUPPORT. A signed value through `SENC.C` and `SDEC.C`: zigzag, encoder, decoder and zigzag back, each transaction on the response of
the one before (spec 30_encoding.md R75, R76; 44_zigzag.md R180 to R185). -/

namespace Sys2Proof.Machine

open Sys2Proof.Safety

/-! Zigzag and back. -/

theorem unzz_of_eq_zz (v : Int) (u : Nat) (h : zz v = u) : unzz u = v := by
  unfold zz at h
  unfold unzz
  split at h
  · rw [if_pos (by omega)]
    omega
  · rw [if_neg (by omega)]
    omega

/-- `ZZE.C` of a signed value of the class (R181, R183). -/
theorem exec_zzeOf_ok (c : Cls) (s : State) (hmin : signedMin c ≤ s.req.a) (hmax : s.req.a ≤ signedMax c) :
    exec (zzeOf c) s = .next (s.respond (Response.okR (zz s.req.a))) := by
  have hexec : exec (zzeOf c) s = zigzagEncode c s := by cases c <;> rfl
  rw [hexec, zigzagEncode, signedOperand, if_neg (by omega), State.finish]

/-- `ZZD.C` of an unsigned value of the class (R182, R184). -/
theorem exec_zzdOf_ok (c : Cls) (s : State) (u : Nat) (ha : s.req.a = u) (hu : u ≤ ceil c) :
    exec (zzdOf c) s = .next (s.respond (Response.okR (unzz u))) := by
  have hexec : exec (zzdOf c) s = zigzagDecode c s := by cases c <;> rfl
  rw [hexec, zigzagDecode, ha, unsignedOperand_ok c u hu, State.finish]

/-- The signed range of a class, by its ceiling (R185). -/
theorem signedRange_eq (c : Cls) : signedMin c = -(((ceil c : Int) + 1) / 2) ∧ signedMax c = ((ceil c : Int) + 1) / 2 - 1 := by
  obtain ⟨hsym, hceil⟩ := signedRange_eq_ceil c
  omega

/-! `OUT` as the host reads it back (R24, R75). -/

theorem allValues_map_some {α : Type} (vs : List α) : allValues (vs.map some) = some vs := by
  induction vs with
  | nil => rfl
  | cons v vs ih => rw [List.map_cons, allValues, ih]

/-- The host reads back the bytes an encoder answered. -/
theorem outBytes_okOut (bs : List Byte) (h : bs.length ≤ 19) : (Response.okOut bs).outBytes = some bs := by
  have hlanes : (Response.okOut bs).out.toList.take bs.length = bs.map some := by
    refine List.ext_getElem (by simpa using h) fun k hk hk' => ?_
    rw [List.length_map] at hk'
    rw [List.getElem_take, Vector.getElem_toList, List.getElem_map, ← List.getElem?_eq_getElem hk']
    exact outLanes_get bs ⟨k, by omega⟩
  unfold Response.outBytes
  rw [Response.okOut_len]
  simp only
  rw [toNat_len _ h, if_neg (by omega), hlanes, allValues_map_some]

/-! The four transactions. -/

theorem present_of_readsOnlyA (l : Line) (s : State) (a : Int) (h : ReadsOnlyA (decodeCmd l.cmd)) (ha : resolveA l.a s = .ok a) :
    present l s = .ok { s with req := { cmd := l.cmd, a := a, inp := [], off := 0 } } := by
  obtain ⟨hA, hIn, hOff⟩ := h
  have hpIn : presentIn (decodeCmd l.cmd) l.inp s = .ok [] := by rw [presentIn, hIn]; rfl
  have hpOff : presentOff (decodeCmd l.cmd) l.off = 0 := by rw [presentOff, hOff]; rfl
  rw [present_eq_ok l s a [] ((presentA_of_reads _ _ s hA).trans ha) hpIn, hpOff]

/-- The line a pseudo-instruction queues: a command with the previous `R` as its `A` (R76). -/
abbrev prevRLine (w : Byte) : Line := { cmd := w, a := .prevR, inp := .bytes [], off := 0 }

theorem step_prevRLine (s : State) (i : Instr) (a : Int) (rest : List Item) (hi : decodeCmd (encodeCmd i) = i) (hreads : ReadsOnlyA i)
    (hs : s.script = .line (prevRLine (encodeCmd i)) :: rest) (hr : s.resp.r = some a) :
    step s = exec i { s with script := rest, req := { cmd := encodeCmd i, a := a, inp := [], off := 0 } } := by
  have hresolve : resolveA .prevR { s with script := rest } = .ok a := by rw [resolveA, hr]
  rw [step_line s _ _ rest hs (present_of_readsOnlyA _ _ a (hi.symm ▸ hreads) hresolve), hi]

/-- An item whose first transaction answers `OK` leaves that response, with its second line at the head of the script. -/
theorem step_item_ok {l l' : Line} (s s' : State) (item : Item) (rest : List Item) (p : Response) (hs : s.script = item :: rest)
    (hitem : fetchItem item { s with script := rest } = issueLine l (some l') { s with script := rest })
    (hp : present l { s with script := rest } = .ok s') (h : exec (decodeCmd l.cmd) s' = .next (s'.respond p))
    (hok : p.status = some 0#3) : step s = .next { s'.respond p with script := .line l' :: s'.script } := by
  rw [step_item s s' item rest l (some l') hs hitem hp, h, andThen, queueIfOk_of_ok l' _ hok, State.respond_script]

/-- `SENC.C` begins with `ZZE.C` (R76). -/
theorem step_senc (s : State) (c : Cls) (v : Int) (rest : List Item) (hs : s.script = .senc c (.lit v) :: rest)
    (hmin : signedMin c ≤ v) (hmax : v ≤ signedMax c) :
    step s = .next
      { s with
        script := .line (prevRLine (encodeCmd (encOf c))) :: rest
        req := { cmd := zzeWord c, a := v, inp := [], off := 0 }
        resp := Response.okR (zz v) } := by
  have hdec := zzeWord_eq c ▸ decodeCmd_encodeCmd_zzeOf c
  have hp := present_of_readsOnlyA { cmd := zzeWord c, a := .lit v, inp := .bytes [], off := 0 } { s with script := rest } v
    (hdec.symm ▸ readsOnlyA_zzeOf c) rfl
  rw [← encWord_eq]
  exact step_item_ok s _ _ rest _ hs rfl hp (hdec.symm ▸ exec_zzeOf_ok c _ hmin hmax) rfl

/-- `ENC.C` of the previous `R`. -/
theorem step_encR (s : State) (c : Cls) (v : Nat) (rest : List Item) (hs : s.script = .line (prevRLine (encodeCmd (encOf c))) :: rest)
    (hr : s.resp.r = some (v : Int)) (hv : v ≤ ceil c) :
    step s = .next
      { s with
        script := rest
        req := { cmd := encodeCmd (encOf c), a := v, inp := [], off := 0 }
        resp := Response.okOut (wireBytes (s.table c) v) } :=
  (step_prevRLine s _ v rest (decodeCmd_encodeCmd_encOf c) (readsOnlyA_encOf c) hs hr).trans
    (exec_encOf_ok c { s with script := rest, req := _ } v rfl hv)

/-- `SDEC.C IN=OUT` begins with `DEC.C` of the bytes the encoder answered (R76). -/
theorem step_sdec (s : State) (c : Cls) (v : Nat) (rest : List Item) (htab : TablesHold s) (hv : v ≤ ceil c)
    (hs : s.script = .sdec c .prevOut :: rest) (hr : s.resp = Response.okOut (wireBytes (s.table c) v)) :
    step s = .next
      { s with
        script := .line (prevRLine (encodeCmd (zzdOf c))) :: rest
        req := { cmd := encodeCmd (decOf c), a := 0, inp := wireBytes (s.table c) v, off := 0 }
        resp := Response.okR v } := by
  have hlen := (wireBytes_length_le s htab c v hv).1.trans (maxLen_le c)
  have hin : resolveIn .prevOut { s with script := rest } = .ok (wireBytes (s.table c) v) := by
    rw [resolveIn, hr, outBytes_okOut _ hlen]
  have hp := present_decLine { s with script := rest } c .prevOut _ hin
  rw [← zzdWord_eq]
  refine step_item_ok s _ _ rest _ hs (by rw [fetchItem, decWord_eq]) hp ?_ rfl
  rw [decodeCmd_encodeCmd_decOf]
  exact exec_decOf_wireBytes c { s with script := rest, req := _ } htab v hv [] (List.append_nil _).symm

/-- `ZZD.C` of the previous `R`. -/
theorem step_zzdR (s : State) (c : Cls) (u : Nat) (rest : List Item) (hs : s.script = .line (prevRLine (encodeCmd (zzdOf c))) :: rest)
    (hr : s.resp.r = some (u : Int)) (hu : u ≤ ceil c) :
    step s = .next
      { s with
        script := rest
        req := { cmd := encodeCmd (zzdOf c), a := u, inp := [], off := 0 }
        resp := Response.okR (unzz u) } :=
  (step_prevRLine s _ u rest (decodeCmd_encodeCmd_zzdOf c) (readsOnlyA_zzdOf c) hs hr).trans
    (exec_zzdOf_ok c { s with script := rest, req := _ } u rfl hu)

/-- A run is a step and the run from where it leads. -/
theorem exists_run_succ {s t : State} {k : Nat} {p : State → Prop} (h : step s = .next t)
    (ht : ∃ u : State, Host.Core.run core k t = .next u ∧ p u) : ∃ u : State, Host.Core.run core (k + 1) s = .next u ∧ p u := by
  simpa only [Host.Core.run, core, h] using ht

/-- Settles O54: `v` becomes `zz v`, its encoding, `zz v` again (`exec_decOf_wireBytes`) and `v` (`unzz_of_eq_zz`). -/
theorem signedScriptRoundTrip : Obligations.SignedScriptRoundTrip := by
  intro s c v htab hlo hhi
  rw [← ceil_eq_ceiling, ← (signedRange_eq c).1] at hlo
  rw [← ceil_eq_ceiling, ← (signedRange_eq c).2] at hhi
  obtain ⟨hzz0, hzz⟩ := zz_range c v hlo hhi
  obtain ⟨u, hu⟩ := Int.eq_ofNat_of_zero_le hzz0
  have hceil : u ≤ ceil c := by omega
  refine exists_run_succ (step_senc _ c v _ rfl hlo hhi) ?_
  refine exists_run_succ (step_encR _ c u _ rfl (congrArg some hu) hceil) ?_
  refine exists_run_succ (step_sdec _ c u _ htab hceil rfl rfl) ?_
  refine exists_run_succ (step_zzdR _ c u _ rfl rfl hceil) ?_
  exact ⟨_, rfl, congrArg Response.okR (unzz_of_eq_zz v u hu), rfl, rfl⟩

end Sys2Proof.Machine

/-! SUPPORT. The bands of the boundary tables, their order and sizes, and what a table lookup answers (spec 40_boundary_table.md R100 to
R104). -/

namespace Sys2Proof.Machine

open Sys2Proof.Safety

/-! Bands and the recurrence (R100, R102). -/

/-- A value of band `i` is not below the entry of an earlier band. -/
theorem cutoff_le_of_inBand {i j v : Nat} (h : InBand i v) (hj : j < i) : cutoff j ≤ v := by
  obtain ⟨k, rfl⟩ : ∃ k, i = k + 1 := ⟨i - 1, by omega⟩
  exact (cutoff_strictMono.monotone (Nat.lt_succ_iff.mp hj)).trans h.1

theorem inBand_le_of_le {i j v w : Nat} (hi : InBand i v) (hj : InBand j w) (hvw : v ≤ w) : i ≤ j := by
  by_contra hlt
  have hle := cutoff_le_of_inBand hi (not_le.mp hlt)
  omega

/-! The tables (R100, R101). -/

/-- Every entry but native band 7's, which is the sentinel, is the entry of the recurrence (R20). -/
theorem table_getD_of_recurrence (s : State) (h : TablesHold s) (c : Cls) (i : Nat) (hi : i < bands c) (hc : c = .X ∨ i ≠ 7) :
    (s.table c).getD i 0 = cutoff i := by
  by_cases hlast : i + 1 < bands c
  · exact table_getD s h c i hlast
  · cases c with
    | N =>
      have h7 : i = 7 := by simp only [bands] at hi hlast; omega
      simp [h7] at hc
    | X =>
      obtain rfl : i = 18 := by simp only [bands] at hi hlast; omega
      rw [table_X s h]
      rfl

/-- No entry before a value's band lies above the value (R101). -/
theorem table_getD_le_of_lt_band (s : State) (h : TablesHold s) (c : Cls) (v j : Nat) (hv : v ≤ ceil c)
    (hj : j < band (s.table c) v) : (s.table c).getD j 0 ≤ v := by
  obtain ⟨hlt, hband, _⟩ := band_spec s h c v hv
  rw [table_getD s h c j (by omega)]
  exact cutoff_le_of_inBand hband hj

theorem band_mono (s : State) (h : TablesHold s) (c : Cls) (v w : Nat) (hvw : v ≤ w) (hw : w ≤ ceil c) :
    band (s.table c) v ≤ band (s.table c) w :=
  inBand_le_of_le (band_spec s h c v (hvw.trans hw)).2.1 (band_spec s h c w hw).2.1 hvw

/-- Native band 7 holds the native values from `T_N[6]` on, wherever the sentinel lies (R101, R102). -/
theorem band_native_eq_seven_iff (s : State) (h : TablesHold s) (v : Nat) (hv : v ≤ ceil .N) :
    band (s.table .N) v = 7 ↔ cutoff 6 ≤ v := by
  constructor
  · intro hb
    obtain ⟨_, hband, _⟩ := band_spec s h .N v hv
    rw [hb] at hband
    exact hband.1
  · intro hlo
    exact band_eq_of_inBand s h .N v 7 hv ⟨hlo, lt_of_le_of_lt hv (ceil_lt_cutoff .N)⟩

theorem ceil_native_le (c : Cls) : ceil .N ≤ ceil c := by cases c <;> decide

/-- The two classes agree on the band of a native value (R101). -/
theorem band_native_eq_extended (s : State) (h : TablesHold s) (v : Nat) (hv : v ≤ ceil .N) :
    band (s.table .N) v = band (s.table .X) v :=
  band_eq_of_inBand s h .N v _ hv (band_spec s h .X v (hv.trans (ceil_native_le .X))).2.1

/-- Settles O13: both classes' lower bounds are the recurrence's (`lower_eq_lowerBound`). -/
theorem lowerBoundOfABand : Obligations.LowerBoundOfABand := by
  intro s h
  refine ⟨fun c i _ => ?_, lower_eq_lowerBound s h, fun i hi => ?_⟩
  · cases i with
    | zero => rfl
    | succ i => rfl
  · rw [lower_eq_lowerBound s h .N i (Nat.lt_succ_of_le hi), lower_eq_lowerBound s h .X i (by simp only [bands]; omega)]

/-- Settles O14: the band is one of the class and encloses the value (`band_spec`), is the least such entry
(`table_getD_le_of_lt_band`), and is the only enclosing band, which gives the ceilings' bands and the classes' agreement. -/
theorem bandIsTheLeastEntryAbove : Obligations.BandIsTheLeastEntryAbove := by
  intro s h
  refine ⟨fun c v hv => ?_, ?_, ?_, band_native_eq_extended s h⟩
  · rw [← ceil_eq_ceiling] at hv
    obtain ⟨hlt, hband, habove⟩ := band_spec s h c v hv
    exact ⟨hlt, habove, fun j hj => table_getD_le_of_lt_band s h c v j hv hj, hband⟩
  · exact band_eq_of_inBand s h .N _ 7 le_rfl (by decide)
  · exact band_eq_of_inBand s h .X _ 18 le_rfl (by decide)

/-- Settles O15: the sizes by `cutoff_sub_lowerBound`, the order of bands by `inBand_le_of_le`. -/
theorem bandLaws : Obligations.BandLaws := by
  have hsize : ∀ i, cutoff i - lowerBound i = 2 ^ (7 * (i + 1)) := fun i => by
    rw [cutoff_sub_lowerBound i, Nat.add_sub_cancel_left]
  refine ⟨fun i => ⟨hsize i, cutoff_sub_lowerBound i ▸ Nat.le_add_right ..⟩, fun i j v w => inBand_le_of_le, fun s c h => ?_⟩
  refine ⟨fun i hi hc => ?_, fun v w hvw hw => ?_, band_native_eq_seven_iff s h, by decide⟩
  · rw [table_getD_of_recurrence s h c i hi hc, lower_eq_lowerBound s h c i hi, hsize]
  · rw [← ceil_eq_ceiling] at hw
    exact band_mono s h c v w hvw hw

/-! Table lookup (R103, R104). -/

theorem tableLookup_outside (c : Cls) (s : State) (h : s.req.a < 0 ∨ (bands c : Int) ≤ s.req.a) :
    tableLookup c s = .next (s.raise .badTableIndex) := by
  obtain ⟨_, e⟩ | ⟨i, hi, hlt, _⟩ := tableLookup_cases c s
  · exact e
  · omega

theorem tableLookup_entry (c : Cls) (s : State) (i : Nat) (ha : s.req.a = i) (hi : i < bands c) :
    tableLookup c s = .next (s.respond (Response.okR ((s.table c).getD i 0 : Nat))) := by
  obtain ⟨hout, _⟩ | ⟨j, hj, _, e⟩ := tableLookup_cases c s
  · omega
  · obtain rfl : i = j := by omega
    exact e

theorem table_N_getD (s : State) (i : Fin 8) : (s.table .N).getD i 0 = s.tabN.get i := by
  simp [State.table, Vector.get_eq_getElem]

theorem table_X_getD (s : State) (i : Fin 19) : (s.table .X).getD i 0 = s.tabX.get i := by
  simp [State.table, Vector.get_eq_getElem]

theorem exec_btlN_entry (s : State) (i : Fin 8) (ha : s.req.a = i.val) :
    exec .btlN s = .next { s with resp := resultR (s.tabN.get i) } := by
  rw [← table_N_getD]
  exact tableLookup_entry .N s i ha i.isLt

theorem exec_btlX_entry (s : State) (i : Fin 19) (ha : s.req.a = i.val) :
    exec .btlX s = .next { s with resp := resultR (s.tabX.get i) } := by
  rw [← table_X_getD]
  exact tableLookup_entry .X s i ha i.isLt

/-- Settles O16: the lookup outside the table and at an entry; the entry at 7 is the sentinel. -/
theorem btlNLooksUpTheNativeTable : Obligations.BtlNLooksUpTheNativeTable := by
  refine ⟨congrArg (Decoded.instr · []) decodeCmd_btlN, fun s => ⟨fun h => ?_, exec_btlN_entry s, fun htab ha => ?_⟩⟩
  · exact tableLookup_outside .N s (by simp only [bands]; omega)
  · have hlast : s.tabN.get 7 = Config.nativeSentinel := by rw [htab.1]; rfl
    rw [exec_btlN_entry s 7 ha, hlast]

/-- Settles O17: the lookup outside the table and at an entry; the entry at 18 is the recurrence's. -/
theorem btlXLooksUpTheExtendedTable : Obligations.BtlXLooksUpTheExtendedTable := by
  refine ⟨congrArg (Decoded.instr · []) decodeCmd_btlX, fun s => ⟨fun h => ?_, exec_btlX_entry s, fun htab ha => ?_⟩⟩
  · exact tableLookup_outside .X s (by simp only [bands]; omega)
  · have hlast : s.tabX.get 18 = 10974776180379243672015609386145847197824 := by
      rw [htab.2, reset_tabX_get]
      decide
    rw [exec_btlX_entry s 18 ha, hlast]
    rfl

end Sys2Proof.Machine

/-! SUPPORT. The codecs' encoders and the native decoder, check by check, and a value through encoder, decoder and `BUSED` (spec
41_native_codec.md R120 to R123; the encoders are those of 42_extended_codec.md R140, R141 too). -/

namespace Sys2Proof.Machine

open Sys2Proof.Safety

/-! The encoders (R120, R121, R140, R141). -/

theorem encodeA_neg (c : Cls) (s : State) (h : s.req.a < 0) : encodeA c s = .raise .outOfRange := by
  rw [encodeA, unsignedOperand_neg c _ h]

theorem encodeA_large (c : Cls) (s : State) (h : (ceil c : Int) < s.req.a) : encodeA c s = .raise .precisionLoss := by
  rw [encodeA, unsignedOperand_large c _ h]

theorem exec_encOf (c : Cls) (s : State) : exec (encOf c) s = encodeToOut c s := by cases c <;> rfl

/-- `ENC.C` ends with the error of its operand check. -/
theorem exec_encOf_raise (c : Cls) (s : State) (e : Status) (h : encodeA c s = .raise e) : exec (encOf c) s = .next (s.raise e) := by
  rw [exec_encOf, encodeToOut, h, State.finish]

/-- `ENCI.C` ends with the error of its operand check, where the host meets the capacity obligation. -/
theorem exec_enciOf_raise (c : Cls) (s : State) (e : Status) (hcap : s.req.off + maxLen c ≤ s.destLen) (h : encodeA c s = .raise e) :
    exec (enciOf c) s = .next (s.raise e) := by
  rw [exec_enciOf, encodeToDest, if_neg (not_lt.mpr hcap), h]

/-- A value of the class has a band of the class, and the encoder's bytes are its encoding there. -/
theorem wireBytes_encodes (c : Cls) (s : State) (htab : TablesHold s) (v : Nat) (hv : v ≤ ceil c) :
    ∃ i, i < bands c ∧ InBand i v ∧ IsEncoding i (v - lowerBound i) (wireBytes (s.table c) v) := by
  obtain ⟨hlt, hband, _⟩ := band_spec s htab c v hv
  exact ⟨_, hlt, hband, wireBytes_isEncoding s htab c v _ hv hband⟩

/-- Settles O18: the operand check, then the bytes of the value's band (`wireBytes_encodes`). -/
theorem encNEncodesToOut : Obligations.EncNEncodesToOut := by
  refine ⟨congrArg (Decoded.instr · []) decodeCmd_encN, fun s => ⟨fun h => ?_, fun h => ?_, fun v htab ha hv => ?_⟩⟩
  · exact exec_encOf_raise .N s _ (encodeA_neg .N s h)
  · exact exec_encOf_raise .N s _ (encodeA_large .N s h)
  · obtain ⟨i, hi, hband, henc⟩ := wireBytes_encodes .N s htab v hv
    exact ⟨i, _, Nat.le_of_lt_succ hi, hband, henc, exec_encOf_ok .N s v ha hv⟩

/-- What `ENCI.C` does with a value of the class: the bytes of its encoding stand at `OFF`, and no other byte changed. -/
theorem exec_enciOf_encodes (c : Cls) (s : State) (v : Nat) (htab : TablesHold s) (hwf : Memory.wf s.dest)
    (hcap : s.req.off + maxLen c ≤ s.destLen) (ha : s.req.a = v) (hv : v ≤ ceil c) :
    ∃ i bs d, i < bands c ∧ InBand i v ∧ IsEncoding i (v - lowerBound i) bs ∧ s.req.off + bs.length ≤ s.destLen ∧
      exec (enciOf c) s = .next { s with resp := lengthOnly bs.length, dest := d } ∧
      (∀ k, k < bs.length → Memory.read d (s.req.off + k) = bs.getD k 0#8) ∧
      (∀ a, a < s.req.off ∨ s.req.off + bs.length ≤ a → Memory.read d a = Memory.read s.dest a) := by
  obtain ⟨i, hi, hband, henc⟩ := wireBytes_encodes c s htab v hv
  have hlen := (wireBytes_length_le s htab c v hv).1
  refine ⟨i, _, _, hi, hband, henc, by omega, (exec_enciOf c s).trans (encodeToDest_ok c s v ha hv hcap), fun k hk => ?_, fun a h => ?_⟩
  · rw [Memory.read_writeBytes _ _ _ _ hwf, if_pos (by omega), Nat.add_sub_cancel_left]
  · rw [Memory.read_writeBytes _ _ _ _ hwf, if_neg (by omega)]

/-- Settles O19: the capacity first, then the operand check, then the store (`exec_enciOf_encodes`). -/
theorem enciNEncodesToDest : Obligations.EnciNEncodesToDest := by
  refine ⟨congrArg (Decoded.instr · []) decodeCmd_enciN, fun s => ⟨fun h => ?_, fun hcap h => ?_, fun hcap h => ?_,
    fun v htab hwf hcap ha hv => ?_⟩⟩
  · exact (exec_fault_iff .enciN s _).mpr ⟨⟨.N, rfl, h⟩, rfl⟩
  · exact exec_enciOf_raise .N s _ hcap (encodeA_neg .N s h)
  · exact exec_enciOf_raise .N s _ hcap (encodeA_large .N s h)
  · obtain ⟨i, bs, d, hi, hstored⟩ := exec_enciOf_encodes .N s v htab hwf hcap ha hv
    exact ⟨i, bs, d, Nat.le_of_lt_succ hi, hstored⟩

/-! The native decoder (R122). -/

theorem decodeNativeBytes_of_small (t : List Nat) (b0 : Byte) (rest : List Byte) (h : b0.toNat < 0x80) :
    decodeNativeBytes t (b0 :: rest) = .ok b0.toNat := if_pos h

theorem clo8_pos_of_le (b0 : Byte) (h : 0x80 ≤ b0.toNat) : 0 < clo8 b0 := by
  revert b0
  decide

/-- Fewer bytes than the marker in byte 0 asks for. -/
theorem decodeNativeBytes_of_short (t : List Nat) (b0 : Byte) (rest : List Byte) (h : 0x80 ≤ b0.toNat)
    (hlen : (b0 :: rest).length < clo8 b0 + 1) : decodeNativeBytes t (b0 :: rest) = .raise .unexpectedEnd :=
  (decodeNativeBytes_of_clo8_pos t b0 rest (clo8_pos_of_le b0 h)).trans (if_pos hlen)

/-- No native value begins with eight ones. -/
theorem decodeNativeBytes_of_full (t : List Nat) (rest : List Byte) (hlen : 9 ≤ (0xFF#8 :: rest).length) :
    decodeNativeBytes t (0xFF#8 :: rest) = .raise .precisionLoss :=
  (decodeNativeBytes_of_clo8_pos t _ rest (by decide)).trans ((if_neg (not_lt.mpr hlen)).trans (if_pos rfl))

theorem exec_decN_of_eq (s : State) (x : Res Nat) (h : decodeNativeBytes (s.table .N) s.req.inp = x) :
    exec .decN s = .next (s.respond (x.response fun v => Response.okR v)) := by
  rw [← h]
  exact execDecN_eq s

/-- How `DEC.C` ends with the value its input denotes (R122, R142). -/
theorem finish_decodedValue (c : Cls) (s : State) (v : Nat) :
    (s.finish (decodedValue c v) fun n => Response.okR n) =
      if v ≤ ceil c then .next { s with resp := resultR v } else .next { s with resp := failed 2#3 } := by
  by_cases hv : v ≤ ceil c
  · rw [if_pos hv, decodedValue, if_neg (not_lt.mpr hv)]
    rfl
  · rw [if_neg hv, decodedValue, if_pos (not_le.mp hv)]
    rfl

/-- Settles O20: each error by the decoder's check of that name, the value by the marker in byte 0 (`exec_decOf_of_markerAt`). -/
theorem decNDecodes : Obligations.DecNDecodes := by
  refine ⟨congrArg (Decoded.instr · []) decodeCmd_decN, fun s => ⟨fun h => ?_, fun b0 rest h => ?_⟩⟩
  · exact exec_decN_of_eq s (.raise .unexpectedEnd) (by rw [h, decodeNativeBytes])
  · have hdec : ∀ x, decodeNativeBytes (s.table .N) (b0 :: rest) = x →
        exec .decN s = .next (s.respond (x.response fun v => Response.okR v)) := fun x hx => exec_decN_of_eq s x (h ▸ hx)
    refine ⟨fun hlt => ?_, fun hge hlen => ?_, fun hfull hlen => ?_, fun htab _ hne hlen => ?_⟩
    · exact hdec _ (decodeNativeBytes_of_small _ b0 rest hlt)
    · exact hdec _ (decodeNativeBytes_of_short _ b0 rest hge (h ▸ hlen))
    · subst hfull
      exact hdec _ (decodeNativeBytes_of_full _ rest (h ▸ hlen))
    · obtain ⟨hm, hle⟩ := markerAt_clo8 b0 rest hne
      exact (exec_decOf_of_markerAt .N s htab _ (Nat.lt_succ_of_le hle) (h ▸ hm) hlen).trans (finish_decodedValue .N s _)

/-! A value through encoder, decoder and `BUSED` (R123, R144, R161). -/

/-- `BUSED` of the bytes `ENC.C` gives for a value, whatever follows them, is their number. -/
theorem exec_bused_wireBytes (c : Cls) (s : State) (htab : TablesHold s) (v : Nat) (hv : v ≤ ceil c) (rest : List Byte)
    (hin : s.req.inp = wireBytes (s.table c) v ++ rest) :
    exec .bused s = .next (s.respond (Response.okLen (wireBytes (s.table c) v).length)) := by
  obtain ⟨i, hi, hband, henc⟩ := wireBytes_encodes c s htab v hv
  have hm := markerAt_append _ rest i (markerAt_of_isEncoding henc (sub_lowerBound_lt i v hband))
  have hi18 : i ≤ 18 := Nat.le_of_lt_succ (hi.trans_le (by cases c <;> decide))
  refine (execBused_eq s).trans ?_
  rw [hin, bytesUsed_of_markerAt _ i hi18 hm, henc.1, Res.response_ok]

/-- `ENC.C` with a value of the class put on `A`. -/
theorem exec_encOf_withA (c : Cls) (s : State) (v : Nat) (hv : v ≤ ceil c) :
    exec (encOf c) (withA s v) = .next ((withA s v).respond (Response.okOut (wireBytes (s.table c) v))) :=
  exec_encOf_ok c (withA s v) v rfl hv

/-- What `ENC.C` answers for a value of the class, the host reads back as bytes, `DEC.C` as the value and `BUSED` as their number. -/
theorem exec_encOf_roundTrip (c : Cls) (s : State) (v : Nat) (htab : TablesHold s) (hv : v ≤ ceil c) :
    ∃ t bs, exec (encOf c) (withA s v) = .next t ∧ t.resp.outBytes = some bs ∧ t.resp.len = some (BitVec.ofNat 5 bs.length) ∧
      (∃ u, exec (decOf c) (withIn t bs) = .next u ∧ u.resp = resultR v) ∧
      (∃ w, exec .bused (withIn t bs) = .next w ∧ w.resp = lengthOnly bs.length) := by
  have hlen := (wireBytes_length_le s htab c v hv).1.trans (maxLen_le c)
  exact ⟨_, _, exec_encOf_withA c s v hv, outBytes_okOut _ hlen, rfl,
    ⟨_, exec_decOf_wireBytes c (withIn ((withA s v).respond _) _) htab v hv [] (List.append_nil _).symm, rfl⟩,
    ⟨_, exec_bused_wireBytes c (withIn ((withA s v).respond _) _) htab v hv [] (List.append_nil _).symm, rfl⟩⟩

/-- The encoder never answers fewer bytes for a greater value: its band is no lower (R102). -/
theorem wireBytes_length_mono (c : Cls) (s : State) (htab : TablesHold s) (v w : Nat) (hvw : v ≤ w) (hw : w ≤ ceil c) :
    (wireBytes (s.table c) v).length ≤ (wireBytes (s.table c) w).length := by
  rw [wireBytes_length, wireBytes_length]
  exact Nat.succ_le_succ (band_mono s htab c v w hvw hw)

/-- `LEN` of `ENC.C` does not fall as the value grows. -/
theorem exec_encOf_len_mono (c : Cls) (s : State) (v w : Nat) (htab : TablesHold s) (hvw : v ≤ w) (hw : w ≤ ceil c) :
    ∃ t t' l l', exec (encOf c) (withA s w) = .next t ∧ exec (encOf c) (withA s v) = .next t' ∧
      t.resp.len = some l ∧ t'.resp.len = some l' ∧ l'.toNat ≤ l.toNat := by
  have hlen : ∀ u, u ≤ ceil c → (wireBytes (s.table c) u).length ≤ 19 := fun u hu =>
    (wireBytes_length_le s htab c u hu).1.trans (maxLen_le c)
  refine ⟨_, _, _, _, exec_encOf_withA c s w hw, exec_encOf_withA c s v (hvw.trans hw), rfl, rfl, ?_⟩
  rw [toNat_len _ (hlen w hw), toNat_len _ (hlen v (hvw.trans hw))]
  exact wireBytes_length_mono c s htab v w hvw hw

/-- Settles O21: the native class of `exec_encOf_roundTrip` and `exec_encOf_len_mono`. -/
theorem nativeRoundTrip : Obligations.NativeRoundTrip := by
  intro s v htab hv
  obtain ⟨t, bs, henc, hout, hlen, ⟨u, hdec, hu⟩, ⟨w, hused, hw⟩⟩ := exec_encOf_roundTrip .N s v htab hv
  refine ⟨⟨t, bs, henc, hout, hlen, ⟨u, hdec, ?_⟩, ⟨w, hused, ?_⟩⟩, fun v' hlt => ?_⟩
  · rw [hu]
    exact ⟨rfl, rfl⟩
  · rw [hw, hlen]
    exact ⟨rfl, rfl⟩
  · exact exec_encOf_len_mono .N s v' v htab hlt.le hv

end Sys2Proof.Machine

/-! SUPPORT. The extended codec's decoder, check by check, and the extended encoder beside the native one (spec 42_extended_codec.md R140
to R144). -/

namespace Sys2Proof.Machine

open Sys2Proof.Safety

/-! The encoders (R140, R141). -/

/-- Settles O22: the operand check, then the bytes of the value's band (`wireBytes_encodes`). -/
theorem encXEncodesToOut : Obligations.EncXEncodesToOut := by
  refine ⟨congrArg (Decoded.instr · []) decodeCmd_encX, fun s => ⟨fun h => ?_, fun h => ?_, fun v htab ha hv => ?_⟩⟩
  · exact exec_encOf_raise .X s _ (encodeA_neg .X s h)
  · exact exec_encOf_raise .X s _ (encodeA_large .X s h)
  · obtain ⟨i, hi, hband, henc⟩ := wireBytes_encodes .X s htab v hv
    exact ⟨i, _, Nat.le_of_lt_succ hi, hband, henc, exec_encOf_ok .X s v ha hv⟩

/-- Settles O23: the capacity first, then the operand check, then the store (`exec_enciOf_encodes`). -/
theorem enciXEncodesToDest : Obligations.EnciXEncodesToDest := by
  refine ⟨congrArg (Decoded.instr · []) decodeCmd_enciX, fun s => ⟨fun h => ?_, fun hcap h => ?_, fun hcap h => ?_,
    fun v htab hwf hcap ha hv => ?_⟩⟩
  · exact (exec_fault_iff .enciX s _).mpr ⟨⟨.X, rfl, h⟩, rfl⟩
  · exact exec_enciOf_raise .X s _ hcap (encodeA_neg .X s h)
  · exact exec_enciOf_raise .X s _ hcap (encodeA_large .X s h)
  · obtain ⟨i, bs, d, hi, hstored⟩ := exec_enciOf_encodes .X s v htab hwf hcap ha hv
    exact ⟨i, bs, d, Nat.le_of_lt_succ hi, hstored⟩

/-! The marker's errors (R142, R160). -/

/-- Ones at the front of a sequence belong to its marker. -/
theorem le_of_onesTo_of_markerAt {b : List Byte} {n i : Nat} (h : OnesTo b n) (hm : MarkerAt b i) : n ≤ i := by
  obtain ⟨_, hones⟩ := h
  obtain ⟨_, _, hzero⟩ := hm
  by_contra hlt
  exact Bool.false_ne_true (hzero.symm.trans (hones i (not_le.mp hlt)))

/-- A sequence of ones too short for a 19th, the empty one included, ends in the middle of its marker. -/
theorem bytesUsed_of_onesTo_end (b : List Byte) (h : OnesTo b (8 * b.length)) (hlen : 8 * b.length < 19) :
    bytesUsed b = .raise .unexpectedEnd := by
  obtain ⟨i, _, hm, _⟩ | ⟨_, _, e⟩ | ⟨⟨hle, _⟩, _⟩ := bytesUsed_cases b
  · exact absurd (le_of_onesTo_of_markerAt h hm) (not_le.mpr hm.1)
  · exact e
  · exact absurd hle (not_le.mpr hlen)

theorem bytesUsed_of_onesTo_nineteen (b : List Byte) (h : OnesTo b 19) : bytesUsed b = .raise .precisionLoss := by
  obtain ⟨i, hi, hm, _⟩ | ⟨_, hlen, _⟩ | ⟨_, e⟩ := bytesUsed_cases b
  · exact absurd (le_of_onesTo_of_markerAt h hm) (not_le.mpr (Nat.lt_succ_of_le hi))
  · exact absurd h.1 (not_le.mpr hlen)
  · exact e

/-! The extended decoder (R142). -/

/-- An error of `bytesUsed` ends the extended decoder. -/
theorem decodeExtendedBytes_of_raise (t : List Nat) (b : List Byte) (e : Status) (h : bytesUsed b = .raise e) :
    decodeExtendedBytes t b = .raise e := by
  rw [decodeExtendedBytes, h]

/-- Fewer bytes than the marker asks for. -/
theorem decodeExtendedBytes_of_short (t : List Nat) (b : List Byte) (i : Nat) (hi : i ≤ 18) (hm : MarkerAt b i)
    (hlen : b.length < i + 1) : decodeExtendedBytes t b = .raise .unexpectedEnd := by
  rw [decodeExtendedBytes, bytesUsed_of_markerAt b i hi hm]
  exact if_pos hlen

/-- `DEC.X` ends with its decoder's error. -/
theorem exec_decX_raise (s : State) (e : Status) (h : decodeExtendedBytes (s.table .X) s.req.inp = .raise e) :
    exec .decX s = .next (s.raise e) := by
  refine (execDecX_eq s).trans ?_
  rw [h, Res.response_raise, State.raise]

/-- Settles O24: the errors of the marker scan, the length check, then the value of the marker's band (`exec_decOf_of_markerAt`). -/
theorem decXDecodes : Obligations.DecXDecodes := by
  refine ⟨congrArg (Decoded.instr · []) decodeCmd_decX, fun s => ⟨fun n hones hn hlt => ?_, fun hones => ?_,
    fun i hi hm => ⟨fun hlen => ?_, fun htab hlen => ?_⟩⟩⟩
  · subst hn
    exact exec_decX_raise s _ (decodeExtendedBytes_of_raise _ _ _ (bytesUsed_of_onesTo_end _ hones hlt))
  · exact exec_decX_raise s _ (decodeExtendedBytes_of_raise _ _ _ (bytesUsed_of_onesTo_nineteen _ hones))
  · exact exec_decX_raise s _ (decodeExtendedBytes_of_short _ _ i hi hm hlen)
  · exact (exec_decOf_of_markerAt .X s htab i (Nat.lt_succ_of_le hi) hm hlen).trans (finish_decodedValue .X s _)

/-! The two classes on a native value (R143). -/

/-- The two classes write the same bytes for a native value: it has one band, and one encoding there. -/
theorem wireBytes_native_eq_extended (s : State) (htab : TablesHold s) (v : Nat) (hv : v ≤ ceil .N) :
    wireBytes (s.table .N) v = wireBytes (s.table .X) v := by
  obtain ⟨i, _, hband, hlenN, hbeN⟩ := wireBytes_encodes .N s htab v hv
  obtain ⟨hlenX, hbeX⟩ := wireBytes_isEncoding s htab .X v i (hv.trans (ceil_native_le .X)) hband
  exact beNat_injective _ _ (hlenN.trans hlenX.symm) (hbeN.trans hbeX.symm)

/-- Settles O25: both classes write the same bytes (`wireBytes_native_eq_extended`), to `OUT` or to `DEST`. -/
theorem classesAgreeOnNativeValues : Obligations.ClassesAgreeOnNativeValues := by
  intro s v htab ha hv
  have hvX : v ≤ ceil .X := hv.trans (ceil_native_le .X)
  have hbytes := wireBytes_native_eq_extended s htab v hv
  refine ⟨⟨_, exec_encOf_ok .X s v ha hvX, ?_⟩, fun hcap => ⟨_, encodeToDest_ok .X s v ha hvX hcap, ?_⟩⟩
  · rw [← hbytes]
    exact exec_encOf_ok .N s v ha hv
  · rw [← hbytes]
    exact encodeToDest_ok .N s v ha hv (le_trans (Nat.add_le_add_left (maxLen_le .N) _) hcap)

/-! The extended laws (R144). -/

/-- Settles O26: the extended class of `exec_encOf_roundTrip`, and the operand check of the value above the ceiling. -/
theorem extendedRoundTrip : Obligations.ExtendedRoundTrip := by
  refine fun s htab => ⟨fun v hv => ?_, _, exec_encOf_raise .X (withA s (2 ^ 128)) _ (encodeA_large .X _ ?_), rfl⟩
  · obtain ⟨t, bs, henc, hout, hlen, ⟨u, hdec, hu⟩, ⟨w, hused, hw⟩⟩ := exec_encOf_roundTrip .X s v htab hv
    refine ⟨t, bs, henc, hout, hlen, ⟨u, hdec, ?_⟩, ⟨w, hused, ?_⟩⟩
    · rw [hu]
      exact ⟨rfl, rfl⟩
    · rw [hw, hlen]
      exact ⟨rfl, rfl⟩
  · exact (by decide : (ceil .X : Int) < 2 ^ 128)

end Sys2Proof.Machine

/-! SUPPORT. The prefix-length oracle: the closed form of `bcont`, the bytes that `BUSED`, `BCONT.*` and the decoders look at (spec
43_prefix_length_oracle.md R160 to R167). -/

namespace Sys2Proof.Machine

open Sys2Proof.Safety

/-! `BUSED` (R160, R161). -/

theorem exec_bused_of_eq (s : State) (x : Res Nat) (h : bytesUsed s.req.inp = x) :
    exec .bused s = .next (s.respond (x.response Response.okLen)) := by
  rw [← h]
  exact execBused_eq s

/-- Settles O31: the errors of the marker scan and the length its marker gives, each by what `bytesUsed` answers. -/
theorem busedGivesThePrefixLength : Obligations.BusedGivesThePrefixLength := by
  refine ⟨congrArg (Decoded.instr · []) decodeCmd_bused, fun s => ⟨fun n hones hn hlt => ?_, fun hones => ?_, fun i hi hm => ?_⟩⟩
  · subst hn
    exact exec_bused_of_eq s _ (bytesUsed_of_onesTo_end _ hones hlt)
  · exact exec_bused_of_eq s _ (bytesUsed_of_onesTo_nineteen _ hones)
  · exact exec_bused_of_eq s _ (bytesUsed_of_markerAt _ i hi hm)

/-- Settles O32: the `BUSED` part of `exec_encOf_roundTrip`. -/
theorem lengthAgreement : Obligations.LengthAgreement := by
  intro s c v htab hv
  rw [← ceil_eq_ceiling] at hv
  obtain ⟨t, bs, henc, hout, hlen, _, u, hused, hu⟩ := exec_encOf_roundTrip c s v htab hv
  exact ⟨t, bs, u, henc, hout, hlen, hused, hu⟩

/-! The closed form of `bcont` (R162, R163). -/

theorem not_markerAt_nil (i : Nat) : ¬MarkerAt [] i := fun h => absurd h.1 (Nat.not_lt_zero i)

/-- Behind a byte `0xFF`, a marker is the rest's, eight bands up (R72). -/
theorem markerAt_cons_full_iff (rest : List Byte) (i : Nat) :
    MarkerAt (0xFF#8 :: rest) i ↔ ∃ j, i = j + 8 ∧ MarkerAt rest j := by
  constructor
  · intro h
    have hi : 8 ≤ i := by
      by_contra hlt
      have hclo := clo8_of_markerAt _ rest i (by omega) h
      exact ne_full_of_clo8_le 0xFF#8 (by omega) rfl
    obtain ⟨j, rfl⟩ := Nat.exists_eq_add_of_le' hi
    exact ⟨j, rfl, (markerAt_full rest j).mp h⟩
  · rintro ⟨j, rfl, h⟩
    exact (markerAt_full rest j).mpr h

/-- The walk from byte `k` on, with fewer bytes than the class's maximum, finds a marker whose bytes are all there; where it stops at the
ceiling, a marker would ask for the maximum. -/
theorem bcontWalk_iff (n m : Nat) (hn : n < m) (b : List Byte) (k : Nat) :
    bcontWalk n m b k = true ↔ ∃ i, MarkerAt b i ∧ 8 * k + i + 1 ≤ n := by
  induction b generalizing k with
  | nil => exact iff_of_false Bool.false_ne_true fun ⟨i, h, _⟩ => not_markerAt_nil i h
  | cons b0 rest ih =>
    rw [bcontWalk]
    by_cases hfull : b0 = 0xFF#8
    · subst hfull
      simp only [markerAt_cons_full_iff]
      rw [if_neg (not_not.mpr rfl)]
      split
      · next hstop =>
        refine iff_of_false (by simpa using hn) ?_
        rintro ⟨_, ⟨j, rfl, _⟩, hle⟩
        omega
      · rw [ih]
        constructor
        · rintro ⟨j, hm, hle⟩
          exact ⟨j + 8, ⟨j, rfl, hm⟩, by omega⟩
        · rintro ⟨_, ⟨j, rfl, hm⟩, hle⟩
          exact ⟨j, hm, by omega⟩
    · obtain ⟨hm, _⟩ := markerAt_clo8 b0 rest hfull
      rw [if_pos hfull, decide_eq_true_iff]
      constructor
      · intro hle
        exact ⟨_, hm, by omega⟩
      · rintro ⟨i, hi, hle⟩
        rw [markerAt_unique _ _ _ hm hi]
        omega

/-- The closed form (R163). -/
theorem bcont_iff (c : Cls) (b : List Byte) :
    bcont c b = true ↔ maxLen c ≤ b.length ∨ ∃ i, MarkerAt b i ∧ i + 1 ≤ b.length := by
  have hpos := maxLen_pos c
  rw [bcont]
  split
  · refine iff_of_false Bool.false_ne_true ?_
    rintro (hle | ⟨i, _, hle⟩) <;> omega
  · split
    · next hmax => exact iff_of_true rfl (.inl hmax)
    · next hmax =>
      rw [bcontWalk_iff _ _ (not_le.mp hmax), or_iff_right hmax]
      simp only [Nat.mul_zero, Nat.zero_add]

/-- The closed form, where the marker's band is known. -/
theorem bcont_iff_of_markerAt (c : Cls) (b : List Byte) (i : Nat) (h : MarkerAt b i) :
    bcont c b = true ↔ maxLen c ≤ b.length ∨ i + 1 ≤ b.length := by
  rw [bcont_iff]
  refine or_congr_right ⟨fun ⟨j, hj, hle⟩ => ?_, fun hle => ⟨i, h, hle⟩⟩
  rwa [markerAt_unique b i j h hj]

/-! Inputs that agree on the first bytes (R163, R167). -/

/-- Two inputs that a command with the window `w` cannot tell apart: they agree on `min(n, 19)` and on their first `w` bytes (R167). -/
structure SameWindow (w : Nat) (b b' : List Byte) : Prop where
  length : min b.length 19 = min b'.length 19
  bytes : b.take w = b'.take w

theorem SameWindow.symm {w : Nat} {b b' : List Byte} (h : SameWindow w b b') : SameWindow w b' b := ⟨h.length.symm, h.bytes.symm⟩

theorem SameWindow.le_length_iff {w : Nat} {b b' : List Byte} (h : SameWindow w b b') (m : Nat) (hm : m ≤ 19) :
    m ≤ b.length ↔ m ≤ b'.length := by
  have := h.length
  omega

theorem SameWindow.take_eq {w : Nat} {b b' : List Byte} (h : SameWindow w b b') (m : Nat) (hm : m ≤ w) : b.take m = b'.take m := by
  have := congrArg (List.take m) h.bytes
  rwa [List.take_take, List.take_take, min_eq_left hm] at this

/-- A marker that ends in the first `w` bytes is seen in them. -/
theorem markerAt_take_of_lt (b : List Byte) (w i : Nat) (h : MarkerAt b i) (hi : i < 8 * w) : MarkerAt (b.take w) i := by
  obtain hw | hw := le_total w b.length
  · obtain ⟨_, hones, hzero⟩ := h
    refine ⟨by rwa [List.length_take_of_le hw], fun j hj => ?_, ?_⟩
    · rw [bitAt_take b w j hw (hj.trans hi)]
      exact hones j hj
    · rw [bitAt_take b w i hw hi]
      exact hzero
  · rwa [List.take_of_length_le hw]

theorem SameWindow.markerAt {w i : Nat} {b b' : List Byte} (hb : SameWindow w b b') (h : MarkerAt b i) (hi : i < 8 * w) :
    MarkerAt b' i := by
  have hm := markerAt_append _ (b'.drop w) i (markerAt_take_of_lt b w i h hi)
  rwa [hb.bytes, List.take_append_drop] at hm

/-- `bcont` looks at no byte past those in which a marker of fewer than `MAXLEN_C` ones can end. -/
theorem bcont_of_sameWindow (c : Cls) (w : Nat) (hw : maxLen c ≤ 8 * w + 1) {b b' : List Byte} (hb : SameWindow w b b')
    (h : bcont c b = true) : bcont c b' = true := by
  have hmax := maxLen_le c
  have hlen := hb.le_length_iff
  by_cases hn : maxLen c ≤ b.length
  · exact (bcont_iff c b').mpr (.inl ((hlen _ hmax).mp hn))
  · obtain ⟨i, hm, hle⟩ := ((bcont_iff c b).mp h).resolve_left hn
    exact (bcont_iff c b').mpr (.inr ⟨i, hb.markerAt hm (by omega), (hlen _ (by omega)).mp hle⟩)

theorem bcont_congr (c : Cls) (w : Nat) (hw : maxLen c ≤ 8 * w + 1) {b b' : List Byte} (hb : SameWindow w b b') :
    bcont c b = bcont c b' :=
  Bool.eq_iff_iff.mpr ⟨bcont_of_sameWindow c w hw hb, bcont_of_sameWindow c w hw hb.symm⟩

/-- A byte that is not `0xFF` ends the marker, there or before it. -/
theorem exists_markerAt_concat (p : List Byte) (b0 : Byte) (h : b0 ≠ 0xFF#8) : ∃ i, MarkerAt (p ++ [b0]) i := by
  induction p with
  | nil => exact ⟨_, (markerAt_clo8 b0 [] h).1⟩
  | cons x p ih =>
    by_cases hx : x = 0xFF#8
    · subst hx
      obtain ⟨i, hi⟩ := ih
      exact ⟨i + 8, (markerAt_full _ i).mpr hi⟩
    · exact ⟨_, (markerAt_clo8 x _ hx).1⟩

/-- `bcont` looks at no byte after the first that is not `0xFF`. -/
theorem bcont_append_cons_congr (c : Cls) (p q q' : List Byte) (b0 : Byte) (h : b0 ≠ 0xFF#8) (hq : q.length = q'.length) :
    bcont c (p ++ b0 :: q) = bcont c (p ++ b0 :: q') := by
  obtain ⟨i, hi⟩ := exists_markerAt_concat p b0 h
  have hm : ∀ r, MarkerAt (p ++ b0 :: r) i := fun r => by simpa using markerAt_append _ r i hi
  rw [Bool.eq_iff_iff, bcont_iff_of_markerAt c _ i (hm q), bcont_iff_of_markerAt c _ i (hm q')]
  simp only [List.length_append, List.length_cons, hq]

/-- Settles O33: `bcont_iff`, `bcont_congr` with the windows of the two classes, and `bcont_append_cons_congr`. -/
theorem bcontClosedForm : Obligations.BcontClosedForm := by
  refine ⟨fun c b => (bcont_iff c b).trans (or_congr_right ?_), fun b b' hlen hb => ?_, fun b b' hlen hb => ?_,
    bcont_append_cons_congr⟩
  · exact ⟨fun ⟨i, hm, hle⟩ => ⟨Nat.one_le_of_lt hle, i, hm, hle⟩, And.right⟩
  · exact bcont_congr .X 3 (by decide) ⟨congrArg (min · 19) hlen, hb⟩
  · exact bcont_congr .N 1 (by decide) ⟨congrArg (min · 19) hlen, hb⟩

/-! `BCONT.C` (R164 to R166). -/

/-- Settles O34: `FLAG` is `bcont`, by its closed form. -/
theorem bcontNAnswersCompleteness : Obligations.BcontNAnswersCompleteness :=
  ⟨congrArg (Decoded.instr · []) decodeCmd_bcontN, fun s => ⟨_, rfl, bcont_iff .N s.req.inp⟩⟩

/-- Settles O35: `FLAG` is `bcont`, by its closed form. -/
theorem bcontXAnswersCompleteness : Obligations.BcontXAnswersCompleteness :=
  ⟨congrArg (Decoded.instr · []) decodeCmd_bcontX, fun s => ⟨_, rfl, bcont_iff .X s.req.inp⟩⟩

theorem exec_bcontOf (c : Cls) (s : State) (f : Bool) (h : bcont c s.req.inp = f) :
    exec (bcontOf c) s = .next (s.respond (Response.okFlag f)) := by
  subst h
  cases c <;> rfl

/-- Exactly the bytes that the marker asks for are complete. -/
theorem bcont_of_markerAt (c : Cls) (b : List Byte) (i : Nat) (h : MarkerAt b i) (hlen : b.length = i + 1) : bcont c b = true :=
  (bcont_iff_of_markerAt c b i h).mpr (.inr hlen.ge)

/-- Fewer bytes than the marker asks for are not, wherever they are cut. -/
theorem bcont_take_of_markerAt (c : Cls) (b : List Byte) (i n : Nat) (h : MarkerAt b i) (hn : n < i + 1) (hmax : n < maxLen c) :
    bcont c (b.take n) = false := by
  have hlen := List.length_take_le n b
  rw [Bool.eq_false_iff, ne_eq, bcont_iff]
  rintro (hle | ⟨j, hj, hle⟩)
  · omega
  · have hj' := markerAt_append _ (b.drop n) j hj
    rw [List.take_append_drop] at hj'
    have := markerAt_unique b i j h hj'
    omega

/-- Settles O36: the encoder's bytes are as many as their marker asks for (`wireBytes_encodes`), so they are complete and no
truncation is (`bcont_of_markerAt`, `bcont_take_of_markerAt`). -/
theorem streamingIsCorrect : Obligations.StreamingIsCorrect := by
  intro s c v htab hv
  rw [← ceil_eq_ceiling] at hv
  obtain ⟨i, _, hband, henc⟩ := wireBytes_encodes c s htab v hv
  have hmax := (wireBytes_length_le s htab c v hv).1
  have hm := markerAt_of_isEncoding henc (sub_lowerBound_lt i v hband)
  refine ⟨_, exec_encOf_withA c s v hv, ?_, fun n hn => ?_⟩
  · exact exec_bcontOf c _ _ (bcont_of_markerAt c _ i hm henc.1)
  · exact exec_bcontOf c _ _ (bcont_take_of_markerAt c _ i n hm (henc.1 ▸ hn) (hn.trans_le hmax))

/-! The input window (R167). -/

/-- `bytesUsed` looks at the first three bytes: the 19th bit is in byte 2. -/
theorem bytesUsed_take_three (b : List Byte) : bytesUsed (b.take 3) = bytesUsed b := by
  obtain ⟨i, hi, hm, e⟩ | ⟨_, hlen, _⟩ | ⟨⟨hle, hones⟩, e⟩ := bytesUsed_cases b
  · rw [e, bytesUsed_of_markerAt _ i hi (markerAt_take_of_lt b 3 i hm (by omega))]
  · rw [List.take_of_length_le (by omega)]
  · have hthree : 3 ≤ b.length := by omega
    rw [e, bytesUsed_of_onesTo_nineteen]
    refine ⟨by rw [List.length_take_of_le hthree]; decide, fun j hj => ?_⟩
    rw [bitAt_take b 3 j hthree (by omega)]
    exact hones j hj

theorem bytesUsed_congr {w : Nat} (hw : 3 ≤ w) {b b' : List Byte} (hb : SameWindow w b b') : bytesUsed b = bytesUsed b' := by
  rw [← bytesUsed_take_three b, hb.take_eq 3 hw, bytesUsed_take_three]

/-- The extended decoder compares `n` with a length of at most 19, and takes that many bytes. -/
theorem decodeExtendedBytes_congr (t : List Nat) {b b' : List Byte} (hb : SameWindow 19 b b') :
    decodeExtendedBytes t b = decodeExtendedBytes t b' := by
  rw [decodeExtendedBytes, decodeExtendedBytes, bytesUsed_congr (by decide) hb]
  split
  · rfl
  · next len hlen =>
    obtain ⟨_, hmax⟩ := bytesUsed_range b' len hlen
    simp only [← not_le, hb.le_length_iff len hmax, hb.take_eq len hmax]

theorem clo8_le (b0 : Byte) : clo8 b0 ≤ 8 := by
  obtain ⟨_, h⟩ | ⟨h, _⟩ := clo8_cases b0 <;> omega

/-- The native decoder compares `n` with a length of at most 9, and takes that many bytes, byte 0 first. -/
theorem decodeNativeBytes_congr (t : List Nat) {b b' : List Byte} (hb : SameWindow 9 b b') :
    decodeNativeBytes t b = decodeNativeBytes t b' := by
  cases b with
  | nil =>
    obtain rfl : [] = b' := by simpa using hb.bytes
    rfl
  | cons b0 rest =>
    cases b' with
    | nil => exact absurd hb.bytes (by simp)
    | cons b0' rest' =>
      have hclo := clo8_le b0
      have htake := hb.take_eq (clo8 b0 + 1) (by omega)
      have hlen := hb.le_length_iff (clo8 b0 + 1) (by omega)
      rw [List.take_succ_cons, List.take_succ_cons, List.cons.injEq] at htake
      obtain ⟨rfl, hrest⟩ := htake
      rw [List.length_cons, List.length_cons] at hlen
      simp only [decodeNativeBytes, decodeNativeLong, ← not_le, hlen, hrest]

/-- A command's two responses are one where its response is a function of `IN` that cannot tell the two inputs apart. -/
theorem exists_response_of_eq (i : Instr) (s : State) (f : List Byte → Response) {b b' : List Byte} (h : f b = f b')
    (hexec : ∀ b, exec i (withIn s b) = .next ((withIn s b).respond (f b))) :
    ∃ p, exec i (withIn s b) = .next { withIn s b with resp := p } ∧ exec i (withIn s b') = .next { withIn s b' with resp := p } :=
  ⟨f b, hexec b, h ▸ hexec b'⟩

/-- Settles O37, command by command: what each computes from `IN` is the same for the two inputs. -/
theorem inputWindow : Obligations.InputWindow := by
  intro i w hi s b b' hlen htake
  have hb : SameWindow w b b' := ⟨hlen, htake⟩
  simp only [List.mem_cons, Prod.mk.injEq, List.not_mem_nil, or_false] at hi
  obtain ⟨rfl, rfl⟩ | ⟨rfl, rfl⟩ | ⟨rfl, rfl⟩ | ⟨rfl, rfl⟩ | ⟨rfl, rfl⟩ := hi
  · exact exists_response_of_eq .decN s (fun b => (decodeNativeBytes (s.table .N) b).response fun v => Response.okR v)
      (congrArg (Res.response · _) (decodeNativeBytes_congr _ hb)) fun b => execDecN_eq (withIn s b)
  · exact exists_response_of_eq .decX s (fun b => (decodeExtendedBytes (s.table .X) b).response fun v => Response.okR v)
      (congrArg (Res.response · _) (decodeExtendedBytes_congr _ hb)) fun b => execDecX_eq (withIn s b)
  · exact exists_response_of_eq .bused s (fun b => (bytesUsed b).response Response.okLen)
      (congrArg (Res.response · _) (bytesUsed_congr le_rfl hb)) fun b => execBused_eq (withIn s b)
  · exact exists_response_of_eq .bcontN s (fun b => Response.okFlag (bcont .N b))
      (congrArg Response.okFlag (bcont_congr .N 3 (by decide) hb)) fun _ => rfl
  · exact exists_response_of_eq .bcontX s (fun b => Response.okFlag (bcont .X b))
      (congrArg Response.okFlag (bcont_congr .X 3 (by decide) hb)) fun _ => rfl

end Sys2Proof.Machine

/-! SUPPORT. The zigzag commands, check by check, and that they undo each other (spec 44_zigzag.md R180 to R185). -/

namespace Sys2Proof.Machine

open Sys2Proof.Safety

/-! The transform (R180). -/

theorem zz_of_neg (v : Int) (h : v < 0) : zz v = -v * 2 - 1 := if_pos h

theorem zz_of_nonneg (v : Int) (h : 0 ≤ v) : zz v = v * 2 := if_neg (not_lt.mpr h)

theorem unzz_of_odd (u : Nat) (h : (u : Int) % 2 = 1) : unzz u * 2 = -((u : Int) + 1) := by
  rw [unzz, if_pos (by omega)]
  omega

theorem unzz_of_even (u : Nat) (h : (u : Int) % 2 = 0) : unzz u * 2 = u := by
  rw [unzz, if_neg (by omega)]
  omega

theorem zz_unzz (u : Nat) : zz (unzz u) = u := by
  obtain h | h := Int.emod_two_eq_zero_or_one u
  · have heven := unzz_of_even u h
    rw [zz_of_nonneg _ (by omega), heven]
  · have hodd := unzz_of_odd u h
    rw [zz_of_neg _ (by omega)]
    omega

/-! The commands, for both classes (R181 to R184). -/

theorem exec_zzeOf (c : Cls) (s : State) :
    exec (zzeOf c) s = .next (s.respond ((signedOperand c s.req.a).response fun v => Response.okR (zz v))) := by
  cases c with
  | N => exact execZzeN_eq s
  | X => exact execZzeX_eq s

theorem exec_zzdOf (c : Cls) (s : State) :
    exec (zzdOf c) s = .next (s.respond ((unsignedOperand c s.req.a).response fun u => Response.okR (unzz u))) := by
  cases c with
  | N => exact execZzdN_eq s
  | X => exact execZzdX_eq s

/-- `ZZE.C` outside the signed range of its class. -/
theorem exec_zzeOf_outside (c : Cls) (s : State) (h : s.req.a < signedMin c ∨ signedMax c < s.req.a) :
    exec (zzeOf c) s = .next (s.raise .precisionLoss) := by
  rw [exec_zzeOf, signedOperand, if_pos h, Res.response_raise, State.raise]

/-- `ZZD.C` ends with the error of its operand check. -/
theorem exec_zzdOf_raise (c : Cls) (s : State) (e : Status) (h : unsignedOperand c s.req.a = .raise e) :
    exec (zzdOf c) s = .next (s.raise e) := by
  rw [exec_zzdOf, h, Res.response_raise, State.raise]

/-- `ZZE.C` on the signed range of its class, with the result as R180 writes it. -/
theorem exec_zzeOf_encodes (c : Cls) (s : State) (hmin : signedMin c ≤ s.req.a) (hmax : s.req.a ≤ signedMax c) :
    ∃ u : Int, 0 ≤ u ∧ u ≤ ceil c ∧ (s.req.a < 0 → u = -s.req.a * 2 - 1) ∧ (0 ≤ s.req.a → u = s.req.a * 2) ∧
      exec (zzeOf c) s = .next { s with resp := resultR u } := by
  obtain ⟨hzz0, hzz⟩ := zz_range c _ hmin hmax
  exact ⟨zz s.req.a, hzz0, hzz, zz_of_neg _, zz_of_nonneg _, exec_zzeOf_ok c s hmin hmax⟩

/-- `ZZD.C` on the unsigned range of its class, with the result as R180 writes it. -/
theorem exec_zzdOf_decodes (c : Cls) (s : State) (h0 : 0 ≤ s.req.a) (hceil : s.req.a ≤ ceil c) :
    ∃ v : Int, signedMin c ≤ v ∧ v ≤ signedMax c ∧ (s.req.a % 2 = 1 → v * 2 = -(s.req.a + 1)) ∧
      (s.req.a % 2 = 0 → v * 2 = s.req.a) ∧ exec (zzdOf c) s = .next { s with resp := resultR v } := by
  obtain ⟨u, hu⟩ := Int.eq_ofNat_of_zero_le h0
  have hle : u ≤ ceil c := by omega
  obtain ⟨hmin, hmax⟩ := unzz_range c u hle
  refine ⟨unzz u, hmin, hmax, ?_, ?_, exec_zzdOf_ok c s u hu hle⟩ <;> rw [hu]
  · exact unzz_of_odd u
  · exact unzz_of_even u

/-- Settles O38: `exec_zzeOf_outside` and `exec_zzeOf_encodes` of the native class. -/
theorem zzeNEncodesSigned : Obligations.ZzeNEncodesSigned :=
  ⟨congrArg (Decoded.instr · []) decodeCmd_zzeN, fun s => ⟨exec_zzeOf_outside .N s, exec_zzeOf_encodes .N s⟩⟩

/-- Settles O39: the two errors of the operand check, and `exec_zzdOf_decodes` of the native class. -/
theorem zzdNDecodesSigned : Obligations.ZzdNDecodesSigned :=
  ⟨congrArg (Decoded.instr · []) decodeCmd_zzdN, fun s => ⟨fun h => exec_zzdOf_raise .N s _ (unsignedOperand_neg .N _ h),
    fun h => exec_zzdOf_raise .N s _ (unsignedOperand_large .N _ h), exec_zzdOf_decodes .N s⟩⟩

/-- Settles O40: `exec_zzeOf_outside` and `exec_zzeOf_encodes` of the extended class. -/
theorem zzeXEncodesSigned : Obligations.ZzeXEncodesSigned :=
  ⟨congrArg (Decoded.instr · []) decodeCmd_zzeX, fun s => ⟨exec_zzeOf_outside .X s, exec_zzeOf_encodes .X s⟩⟩

/-- Settles O41: the two errors of the operand check, and `exec_zzdOf_decodes` of the extended class. -/
theorem zzdXDecodesSigned : Obligations.ZzdXDecodesSigned :=
  ⟨congrArg (Decoded.instr · []) decodeCmd_zzdX, fun s => ⟨fun h => exec_zzdOf_raise .X s _ (unsignedOperand_neg .X _ h),
    fun h => exec_zzdOf_raise .X s _ (unsignedOperand_large .X _ h), exec_zzdOf_decodes .X s⟩⟩

/-! The laws (R185). -/

/-- `ZZE.C` answers in `R` only for an operand in range, and then its zigzag. -/
theorem exec_zzeOf_result (c : Cls) (s t : State) (r : Int) (h : exec (zzeOf c) s = .next t) (hr : t.resp.r = some r) :
    signedMin c ≤ s.req.a ∧ s.req.a ≤ signedMax c ∧ r = zz s.req.a := by
  cases (exec_zzeOf c s).symm.trans h
  obtain ⟨v, hv, rfl⟩ := Res.ok_of_response_r _ zz r hr
  obtain ⟨_, e⟩ | ⟨hmin, hmax, e⟩ := signedOperand_cases c s.req.a
  · cases e.symm.trans hv
  · cases e.symm.trans hv
    exact ⟨hmin, hmax, rfl⟩

/-- `ZZD.C` answers in `R` only for an operand in range, and then the value it is the zigzag of. -/
theorem exec_zzdOf_result (c : Cls) (s t : State) (r : Int) (h : exec (zzdOf c) s = .next t) (hr : t.resp.r = some r) :
    ∃ u : Nat, s.req.a = u ∧ u ≤ ceil c ∧ r = unzz u := by
  cases (exec_zzdOf c s).symm.trans h
  obtain ⟨u, hu, rfl⟩ := Res.ok_of_response_r _ unzz r hr
  obtain ⟨_, e⟩ | ⟨_, e⟩ | ⟨_, ha, hle, e⟩ := unsignedOperand_cases c s.req.a
  · cases e.symm.trans hu
  · cases e.symm.trans hu
  · cases e.symm.trans hu
    exact ⟨u, ha, hle, rfl⟩

/-- `ZZD.C` gives back every operand that `ZZE.C` answered. -/
theorem exec_zzdOf_of_exec_zzeOf (c : Cls) (s t : State) (v r : Int) (h : exec (zzeOf c) (withA s v) = .next t)
    (hr : t.resp.r = some r) : ∃ u, exec (zzdOf c) (withA t r) = .next u ∧ u.resp.r = some v := by
  obtain ⟨hmin, hmax, rfl⟩ := exec_zzeOf_result c _ t r h hr
  obtain ⟨hzz0, hzz⟩ := zz_range c v hmin hmax
  obtain ⟨n, hn⟩ := Int.eq_ofNat_of_zero_le hzz0
  exact ⟨_, exec_zzdOf_ok c (withA t (zz v)) n hn (by omega), congrArg some (unzz_of_eq_zz v n hn)⟩

/-- `ZZE.C` gives back every operand that `ZZD.C` answered. -/
theorem exec_zzeOf_of_exec_zzdOf (c : Cls) (s t : State) (v r : Int) (h : exec (zzdOf c) (withA s v) = .next t)
    (hr : t.resp.r = some r) : ∃ u, exec (zzeOf c) (withA t r) = .next u ∧ u.resp.r = some v := by
  obtain ⟨n, hn, hle, rfl⟩ := exec_zzdOf_result c _ t r h hr
  obtain ⟨hmin, hmax⟩ := unzz_range c n hle
  exact ⟨_, exec_zzeOf_ok c (withA t (unzz n)) hmin hmax, congrArg some ((zz_unzz n).trans hn.symm)⟩

/-- `unzz` inverts zigzag between the two ranges of a class, in both directions. -/
theorem zz_bijOn (c : Cls) : Set.BijOn zz (Set.Icc (signedMin c) (signedMax c)) (Set.Icc 0 (ceil c : Int)) := by
  have hinv : Set.InvOn (unzz ∘ Int.toNat) zz (Set.Icc (signedMin c) (signedMax c)) (Set.Icc 0 (ceil c : Int)) := by
    refine ⟨fun v ⟨hmin, hmax⟩ => ?_, fun u ⟨h0, _⟩ => ?_⟩
    · exact unzz_of_eq_zz v _ (Int.toNat_of_nonneg (zz_range c v hmin hmax).1).symm
    · exact (zz_unzz u.toNat).trans (Int.toNat_of_nonneg h0)
  refine hinv.bijOn (fun v ⟨hmin, hmax⟩ => zz_range c v hmin hmax) fun u ⟨_, hceil⟩ => ?_
  exact unzz_range c u.toNat (Int.toNat_le.mpr hceil)

/-- The values the source lists with their zigzags (R185). -/
abbrev listedZigzags : List (Int × Int) :=
  [(0, 0), (-1, 1), (1, 2), (-2, 3), (2147483647, 4294967294), (-2147483648, 4294967295)]

theorem listedZigzags_spec (c : Cls) : ∀ p ∈ listedZigzags, signedMin c ≤ p.1 ∧ p.1 ≤ signedMax c ∧ zz p.1 = p.2 := by
  cases c <;> decide

/-- Settles O42: the commands undo each other (`exec_zzdOf_of_exec_zzeOf`, `exec_zzeOf_of_exec_zzdOf`), `zz_bijOn` with the ranges written
by the ceiling, and the listed values through `exec_zzeOf_ok`. -/
theorem zigzagIsABijection : Obligations.ZigzagIsABijection := by
  refine fun s c => ⟨fun v r t => exec_zzdOf_of_exec_zzeOf c s t v r, fun v r t => exec_zzeOf_of_exec_zzdOf c s t v r, ?_,
    fun p hp => ?_⟩
  · obtain ⟨hmin, hmax⟩ := signedRange_eq c
    rw [← ceil_eq_ceiling, ← hmin, ← hmax]
    exact zz_bijOn c
  · obtain ⟨hmin, hmax, hzz⟩ := listedZigzags_spec c p hp
    rw [← hzz]
    exact exec_zzeOf_ok c (withA s p.1) hmin hmax

end Sys2Proof.Machine

/-! SUPPORT. Which error each command raises, and exactly where (spec 60_exceptions.md R201 to R207). -/

namespace Sys2Proof.Machine

open Sys2Proof.Safety

/-! The operand checks (R201, R202). -/

@[simp] theorem unsignedOperand_eq_raise_iff (c : Cls) (a : Int) (e : Status) :
    unsignedOperand c a = .raise e ↔ (e = .outOfRange ∧ a < 0) ∨ (e = .precisionLoss ∧ (ceil c : Int) < a) := by
  obtain ⟨h, he⟩ | ⟨h, he⟩ | ⟨v, rfl, hv, he⟩ := unsignedOperand_cases c a
  · have hle : ¬(ceil c : Int) < a := by omega
    simp [he, h, hle, eq_comm]
  · have hnonneg : ¬a < 0 := by omega
    simp [he, h, hnonneg, eq_comm]
  · simp [he, hv]

@[simp] theorem signedOperand_eq_raise_iff (c : Cls) (a : Int) (e : Status) :
    signedOperand c a = .raise e ↔ e = .precisionLoss ∧ (a < signedMin c ∨ signedMax c < a) := by
  obtain ⟨h, he⟩ | ⟨hmin, hmax, he⟩ := signedOperand_cases c a
  · simp [he, h, eq_comm]
  · simp [he, hmin, hmax]

theorem encodeA_eq_raise_iff (c : Cls) (s : State) (e : Status) :
    encodeA c s = .raise e ↔ unsignedOperand c s.req.a = .raise e := by
  unfold encodeA
  cases unsignedOperand c s.req.a <;> simp

theorem decodedValue_eq_raise_iff (c : Cls) (v : Nat) (e : Status) :
    decodedValue c v = .raise e ↔ e = .precisionLoss ∧ ceil c < v := by
  unfold decodedValue
  split
  · next h => simp [h, eq_comm]
  · next h => simp [h]

/-! The marker scan (R202, R204). -/

/-- The bytes end before the marker does: ones to the last bit, and no 19th (R160, R204). -/
abbrev Unterminated (b : List Byte) : Prop := OnesTo b (8 * b.length) ∧ 8 * b.length < 19

/-- R204 names the empty input besides the unterminated marker, of which it is a case. -/
@[simp] theorem bytesUsed_eq_raise_iff (b : List Byte) (e : Status) :
    bytesUsed b = .raise e ↔ (e = .unexpectedEnd ∧ (b = [] ∨ Unterminated b)) ∨ (e = .precisionLoss ∧ OnesTo b 19) := by
  constructor
  · intro h
    obtain ⟨_, _, _, he⟩ | ⟨hones, hlen, he⟩ | ⟨hones, he⟩ := bytesUsed_cases b <;> cases he.symm.trans h
    · exact .inl ⟨rfl, .inr ⟨hones, hlen⟩⟩
    · exact .inr ⟨rfl, hones⟩
  · rintro (⟨rfl, rfl | ⟨hones, hlen⟩⟩ | ⟨rfl, hones⟩)
    · rfl
    · exact bytesUsed_of_onesTo_end b hones hlen
    · exact bytesUsed_of_onesTo_nineteen b hones

/-! The decoders (R202, R204), whatever the tables hold. -/

/-- What the first `k + 1` bytes of `b` denote in band `k` by the table `t`. -/
def denotedBy (t : List Nat) (b : List Byte) (k : Nat) : Nat := lower t k + beNat (b.take (k + 1)) % 2 ^ (7 * (k + 1))

/-- With the tables of R20 that is the value of R70. -/
theorem denotedBy_table (s : State) (htab : TablesHold s) (c : Cls) (b : List Byte) (k : Nat) (hk : k < bands c) :
    denotedBy (s.table c) b k = denoted b k := by
  rw [denotedBy, lower_eq_lowerBound s htab c k hk, denoted]

/-- With the tables of R20, an input denotes a value above the ceiling by the table exactly if it does by R70. -/
theorem exists_denotedBy_table_iff (s : State) (htab : TablesHold s) (c : Cls) (b : List Byte) (n : Nat) (hn : n < bands c) :
    (∃ k, k ≤ n ∧ MarkerAt b k ∧ k + 1 ≤ b.length ∧ ceil c < denotedBy (s.table c) b k) ↔
      ∃ k, k ≤ n ∧ MarkerAt b k ∧ k + 1 ≤ b.length ∧ ceil c < denoted b k :=
  exists_congr fun k => and_congr_right fun hk => by rw [denotedBy_table s htab c b k (hk.trans_lt hn)]

theorem decodeExtendedBytes_of_framed (t : List Nat) (b : List Byte) (k : Nat) (h : Framed .X b k) :
    decodeExtendedBytes t b = decodedValue .X (denotedBy t b k) := by
  rw [decodeExtendedBytes, bytesUsed_of_markerAt b k (Nat.le_of_lt_succ h.band) h.marker]
  exact if_neg (not_lt.mpr h.length)

/-- The extended decoder raises what the marker scan raises, then checks the length and the ceiling. -/
@[simp] theorem decodeExtendedBytes_eq_raise_iff (t : List Nat) (b : List Byte) (e : Status) :
    decodeExtendedBytes t b = .raise e ↔
      (e = .unexpectedEnd ∧ (b = [] ∨ Unterminated b ∨ ∃ k, k ≤ 18 ∧ MarkerAt b k ∧ b.length < k + 1)) ∨
      (e = .precisionLoss ∧ (OnesTo b 19 ∨ ∃ k, k ≤ 18 ∧ MarkerAt b k ∧ k + 1 ≤ b.length ∧ ceil .X < denotedBy t b k)) := by
  constructor
  · intro h
    obtain ⟨k, hk, hm, _⟩ | ⟨hones, hlen, he⟩ | ⟨hones, he⟩ := bytesUsed_cases b
    · by_cases hl : k + 1 ≤ b.length
      · rw [decodeExtendedBytes_of_framed t b k ⟨Nat.lt_succ_of_le hk, hm, hl⟩, decodedValue_eq_raise_iff] at h
        exact .inr (h.imp_right fun hv => .inr ⟨k, hk, hm, hl, hv⟩)
      · cases (decodeExtendedBytes_of_short t b k hk hm (not_le.mp hl)).symm.trans h
        exact .inl ⟨rfl, .inr (.inr ⟨k, hk, hm, not_le.mp hl⟩)⟩
    · cases (decodeExtendedBytes_of_raise t b _ he).symm.trans h
      exact .inl ⟨rfl, .inr (.inl ⟨hones, hlen⟩)⟩
    · cases (decodeExtendedBytes_of_raise t b _ he).symm.trans h
      exact .inr ⟨rfl, .inl hones⟩
  · rintro (⟨rfl, rfl | ⟨hones, hlen⟩ | ⟨k, hk, hm, hl⟩⟩ | ⟨rfl, hones | ⟨k, hk, hm, hl, hv⟩⟩)
    · rfl
    · exact decodeExtendedBytes_of_raise t b _ (bytesUsed_of_onesTo_end b hones hlen)
    · exact decodeExtendedBytes_of_short t b k hk hm hl
    · exact decodeExtendedBytes_of_raise t b _ (bytesUsed_of_onesTo_nineteen b hones)
    · rw [decodeExtendedBytes_of_framed t b k ⟨Nat.lt_succ_of_le hk, hm, hl⟩, decodedValue_eq_raise_iff]
      exact ⟨rfl, hv⟩

/-- The native decoder's fast path is the long path at band 0. -/
theorem decodeNativeBytes_cons (t : List Nat) (b0 : Byte) (rest : List Byte) :
    decodeNativeBytes t (b0 :: rest) = decodeNativeLong t b0 rest (clo8 b0) := by
  by_cases hsmall : b0.toNat < 0x80
  · have hceil : ¬ceil .N < b0.toNat := not_lt.mpr (hsmall.le.trans (by decide))
    rw [decodeNativeBytes_of_small t b0 rest hsmall, clo8_of_lt b0 hsmall]
    simp [decodeNativeLong, lower, beNat, decodedValue, Nat.mod_eq_of_lt hsmall, hceil]
  · exact if_neg hsmall

theorem decodeNativeBytes_of_framed (t : List Nat) (b : List Byte) (k : Nat) (h : Framed .N b k) :
    decodeNativeBytes t b = decodedValue .N (denotedBy t b k) := by
  have hk : k ≤ 7 := Nat.le_of_lt_succ h.band
  obtain ⟨b0, rest, rfl, rfl⟩ := (markerAt_iff_clo8 b k hk).mp h.marker
  have hl : clo8 b0 ≤ rest.length := Nat.le_of_succ_le_succ h.length
  rw [decodeNativeBytes_cons, decodeNativeLong, if_neg (by omega), if_neg (by omega), native_payload b0 rest _ hk hl, denotedBy]

/-- Fewer bytes than the marker in byte 0 asks for; it asks for more than one, so the fast path is not taken. -/
theorem decodeNativeBytes_of_length_lt (t : List Nat) (b0 : Byte) (rest : List Byte) (h : (b0 :: rest).length < clo8 b0 + 1) :
    decodeNativeBytes t (b0 :: rest) = .raise .unexpectedEnd :=
  (decodeNativeBytes_cons t b0 rest).trans (if_pos h)

@[simp] theorem decodeNativeBytes_eq_raise_iff (t : List Nat) (b : List Byte) (e : Status) :
    decodeNativeBytes t b = .raise e ↔
      (e = .unexpectedEnd ∧ (b = [] ∨ ∃ b0 r, b = b0 :: r ∧ b.length < clo8 b0 + 1)) ∨
      (e = .precisionLoss ∧ ((b.head? = some 0xFF#8 ∧ 9 ≤ b.length) ∨
        ∃ k, k ≤ 7 ∧ MarkerAt b k ∧ k + 1 ≤ b.length ∧ ceil .N < denotedBy t b k)) := by
  constructor
  · intro h
    cases b with
    | nil =>
      cases h
      exact .inl ⟨rfl, .inl rfl⟩
    | cons b0 rest =>
      by_cases hl : (b0 :: rest).length < clo8 b0 + 1
      · cases (decodeNativeBytes_of_length_lt t b0 rest hl).symm.trans h
        exact .inl ⟨rfl, .inr ⟨b0, rest, rfl, hl⟩⟩
      · rw [not_lt] at hl
        by_cases hfull : b0 = 0xFF#8
        · subst hfull
          cases (decodeNativeBytes_of_full t rest hl).symm.trans h
          exact .inr ⟨rfl, .inl ⟨rfl, hl⟩⟩
        · obtain ⟨hm, hk⟩ := markerAt_clo8 b0 rest hfull
          rw [decodeNativeBytes_of_framed t _ _ ⟨Nat.lt_succ_of_le hk, hm, hl⟩, decodedValue_eq_raise_iff] at h
          exact .inr (h.imp_right fun hv => .inr ⟨_, hk, hm, hl, hv⟩)
  · rintro (⟨rfl, rfl | ⟨b0, rest, rfl, hl⟩⟩ | ⟨rfl, ⟨hfull, hl⟩ | ⟨k, hk, hm, hl, hv⟩⟩)
    · rfl
    · exact decodeNativeBytes_of_length_lt t b0 rest hl
    · obtain ⟨rest, rfl⟩ := List.head?_eq_some_iff.mp hfull
      exact decodeNativeBytes_of_full t rest hl
    · rw [decodeNativeBytes_of_framed t b k ⟨Nat.lt_succ_of_le hk, hm, hl⟩, decodedValue_eq_raise_iff]
      exact ⟨rfl, hv⟩

/-! How a command ends with an error (R203). -/

theorem Status.code_injective : Function.Injective Status.code := by
  intro e e'
  cases e <;> cases e' <;> decide

/-- A command that answers without `OK` has raised an error, and has done nothing else. -/
theorem exec_eq_raise_of_not_ok (i : Instr) (s t : State) (h : exec i s = .next t) (hok : t.resp.status ≠ some 0#3) :
    ∃ e, e ≠ .ok ∧ t = s.raise e := by
  obtain ht | ⟨_, _, _, _, _, rfl⟩ := exec_next_cases i s t h
  · have hprod := exec_produces i s t h
    rw [ht]
    generalize t.resp = p at hprod hok
    cases hprod with
    | raised e he => exact ⟨e, he, rfl⟩
    | out | len | r | flag => exact absurd rfl hok
  · exact absurd rfl hok

/-- Settles O49: such a command has raised an error (`exec_eq_raise_of_not_ok`). -/
theorem errorChangesStatusOnly : Obligations.ErrorChangesStatusOnly := by
  intro i s t h hok
  obtain ⟨e, _, rfl⟩ := exec_eq_raise_of_not_ok i s t h hok
  exact ⟨rfl, rfl, Response.raised_lane e, rfl, rfl⟩

/-- A command ends with the status of an error exactly if it raises that error. -/
theorem exists_status_iff (i : Instr) (s : State) (e : Status) (he : e ≠ .ok) :
    (∃ t, exec i s = .next t ∧ t.resp.status = some e.code) ↔ exec i s = .next (s.raise e) := by
  constructor
  · rintro ⟨t, h, hcode⟩
    have hok : t.resp.status ≠ some 0#3 := fun h0 => he (e.code_eq_zero.mp (Option.some.inj (hcode.symm.trans h0)))
    obtain ⟨e', _, rfl⟩ := exec_eq_raise_of_not_ok i s t h hok
    rw [← Status.code_injective (Option.some.inj hcode)]
    exact h
  · exact fun h => ⟨_, h, rfl⟩

/-! The error of each command, by the check that finds it. -/

/-- The command `i` raises `e` in `s`: the check of an operand, a decoder or the marker scan answers `e`; a lookup and a reserved word
have one error each; `BCONT.*` has none (R201 to R205). -/
def Raises (i : Instr) (s : State) (e : Status) : Prop :=
  match i with
  | .encN => unsignedOperand .N s.req.a = .raise e
  | .encX => unsignedOperand .X s.req.a = .raise e
  | .enciN => s.req.off + 9 ≤ s.destLen ∧ unsignedOperand .N s.req.a = .raise e
  | .enciX => s.req.off + 19 ≤ s.destLen ∧ unsignedOperand .X s.req.a = .raise e
  | .decN => decodeNativeBytes (s.table .N) s.req.inp = .raise e
  | .decX => decodeExtendedBytes (s.table .X) s.req.inp = .raise e
  | .bused => bytesUsed s.req.inp = .raise e
  | .bcontN => False
  | .bcontX => False
  | .zzeN => signedOperand .N s.req.a = .raise e
  | .zzeX => signedOperand .X s.req.a = .raise e
  | .zzdN => unsignedOperand .N s.req.a = .raise e
  | .zzdX => unsignedOperand .X s.req.a = .raise e
  | .btlN => e = .badTableIndex ∧ (s.req.a < 0 ∨ 7 < s.req.a)
  | .btlX => e = .badTableIndex ∧ (s.req.a < 0 ∨ 18 < s.req.a)
  | .reservedBusedX => e = .illegalCommand
  | .reservedRsv _ _ _ => e = .illegalCommand

/-- An answer with a response of status `OK` raises no error. -/
theorem next_ne_raise (s t : State) (e : Status) (he : e ≠ .ok) (ht : t.resp.status = some 0#3) :
    (Host.Outcome.next t : Host.Outcome State Fault Refusal) ≠ .next (s.raise e) := by
  rintro ⟨⟩
  exact he (e.code_eq_zero.mp (Option.some.inj ht))

theorem next_raise_eq_iff (s : State) (e e' : Status) :
    (Host.Outcome.next (s.raise e) : Host.Outcome State Fault Refusal) = .next (s.raise e') ↔ e' = e := by
  refine ⟨fun h => ?_, fun h => h ▸ rfl⟩
  have hstate : s.raise e = s.raise e' := by simpa using h
  exact (Status.code_injective (Option.some.inj (congrArg (·.resp.status) hstate))).symm

theorem finish_eq_raise_iff {α : Type} (s : State) (x : Res α) (f : α → Response) (e : Status) (he : e ≠ .ok)
    (hf : ∀ v, (f v).status = some 0#3) : s.finish x f = .next (s.raise e) ↔ x = .raise e := by
  cases x with
  | ok v => exact iff_of_false (next_ne_raise s _ e he (hf v)) nofun
  | raise e' => rw [State.finish, next_raise_eq_iff, Res.raise.injEq, eq_comm]

theorem encodeToOut_eq_raise_iff (c : Cls) (s : State) (e : Status) (he : e ≠ .ok) :
    encodeToOut c s = .next (s.raise e) ↔ unsignedOperand c s.req.a = .raise e := by
  rw [encodeToOut, finish_eq_raise_iff s _ _ e he Response.okOut_status, encodeA_eq_raise_iff]

theorem encodeToDest_eq_raise_iff (c : Cls) (s : State) (e : Status) (he : e ≠ .ok) :
    encodeToDest c s = .next (s.raise e) ↔ s.req.off + maxLen c ≤ s.destLen ∧ unsignedOperand c s.req.a = .raise e := by
  rw [← encodeA_eq_raise_iff]
  constructor
  · intro h
    obtain ⟨hcap, ⟨e', hx, ht⟩ | ⟨_, _, ht⟩⟩ := encodeToDest_next c s _ h
    · exact ⟨hcap, (next_raise_eq_iff s e e').mp (congrArg _ ht) ▸ hx⟩
    · exact absurd (congrArg _ ht.symm) (next_ne_raise s _ e he rfl)
  · exact fun ⟨hcap, hx⟩ => (exec_enciOf c s).symm.trans (exec_enciOf_raise c s e hcap hx)

theorem tableLookup_eq_raise_iff (c : Cls) (s : State) (e : Status) (he : e ≠ .ok) :
    tableLookup c s = .next (s.raise e) ↔ e = .badTableIndex ∧ (s.req.a < 0 ∨ (bands c : Int) - 1 < s.req.a) := by
  obtain ⟨hout, h⟩ | ⟨k, hk, hlt, h⟩ := tableLookup_cases c s <;> rw [h]
  · rw [next_raise_eq_iff]
    exact (and_iff_left (by omega)).symm
  · exact iff_of_false (next_ne_raise s _ e he rfl) fun ⟨_, hout⟩ => by omega

/-- Every command raises just the errors its checks find. -/
theorem exec_eq_raise_iff (i : Instr) (s : State) (e : Status) (he : e ≠ .ok) : exec i s = .next (s.raise e) ↔ Raises i s e := by
  cases i with
  | encN => exact encodeToOut_eq_raise_iff .N s e he
  | encX => exact encodeToOut_eq_raise_iff .X s e he
  | enciN => exact encodeToDest_eq_raise_iff .N s e he
  | enciX => exact encodeToDest_eq_raise_iff .X s e he
  | decN | decX | zzeN | zzeX | zzdN | zzdX => exact finish_eq_raise_iff s _ _ e he fun _ => rfl
  | bused => exact finish_eq_raise_iff s _ _ e he Response.okLen_status
  | bcontN | bcontX => exact iff_of_false (next_ne_raise s _ e he rfl) not_false
  | btlN => exact tableLookup_eq_raise_iff .N s e he
  | btlX => exact tableLookup_eq_raise_iff .X s e he
  | reservedBusedX | reservedRsv => exact next_raise_eq_iff s _ e

/-- A command ends with the status of an error exactly where its checks find that error. -/
theorem exists_status_iff_raises (i : Instr) (s : State) (e : Status) (he : e ≠ .ok) :
    (∃ t, exec i s = .next t ∧ t.resp.status = some e.code) ↔ Raises i s e :=
  (exists_status_iff i s e he).trans (exec_eq_raise_iff i s e he)

/-! Error by error: first the commands that raise it, then the rest, whose checks find others or none. -/

/-- Settles O45: an unsigned operand below zero; no other check finds this error. -/
theorem outOfRangeExactly : Obligations.OutOfRangeExactly := by
  intro i s
  refine (exists_status_iff_raises i s .outOfRange nofun).trans ?_
  cases i with
  | encN | encX | zzdN | zzdX | enciN | enciX => simp [Raises, unsignedOperand_eq_raise_iff, and_comm]
  | decN | decX | bused | zzeN | zzeX | bcontN | bcontX | btlN | btlX | reservedBusedX | reservedRsv => simp [Raises]

/-- Settles O46: an operand above its range, a decoded value above its ceiling, and a marker no class has. -/
theorem precisionLossExactly : Obligations.PrecisionLossExactly := by
  intro i s htab
  refine (exists_status_iff_raises i s .precisionLoss nofun).trans ?_
  cases i with
  | encN | encX | zzdN | zzdX | enciN | enciX => simp [Raises, unsignedOperand_eq_raise_iff, ceil]
  | zzeN | zzeX => simp [Raises, signedOperand_eq_raise_iff, signedMin, signedMax]
  | decN =>
    rw [Raises, decodeNativeBytes_eq_raise_iff, exists_denotedBy_table_iff s htab .N _ 7 (by decide)]
    simp [ceil]
  | decX =>
    rw [Raises, decodeExtendedBytes_eq_raise_iff, exists_denotedBy_table_iff s htab .X _ 18 (by decide)]
    simp [ceil]
  | bused => simp [Raises, bytesUsed_eq_raise_iff]
  | bcontN | bcontX | btlN | btlX | reservedBusedX | reservedRsv => simp [Raises]

/-- Settles O47: the inputs too short for their marker; only the decoders and the marker scan find this error. -/
theorem unexpectedEndExactly : Obligations.UnexpectedEndExactly := by
  intro i s
  refine (exists_status_iff_raises i s .unexpectedEnd nofun).trans ?_
  cases i with
  | decN => simp [Raises, decodeNativeBytes_eq_raise_iff]
  | decX => simp [Raises, decodeExtendedBytes_eq_raise_iff]
  | bused => simp [Raises, bytesUsed_eq_raise_iff]
  | encN | encX | enciN | enciX | zzeN | zzeX | zzdN | zzdX | bcontN | bcontX | btlN | btlX | reservedBusedX | reservedRsv =>
    simp [Raises]

theorem raises_illegalCommand_iff (i : Instr) (s : State) :
    Raises i s .illegalCommand ↔ i = .reservedBusedX ∨ ∃ rsv x func, i = .reservedRsv rsv x func := by
  cases i with
  | reservedBusedX | reservedRsv => simp [Raises]
  | encN | encX | enciN | enciX | decN | decX | bused | bcontN | bcontX | zzeN | zzeX | zzdN | zzdX | btlN | btlX => simp [Raises]

theorem raises_badTableIndex_iff (i : Instr) (s : State) :
    Raises i s .badTableIndex ↔ (i = .btlN ∧ (s.req.a < 0 ∨ 7 < s.req.a)) ∨ (i = .btlX ∧ (s.req.a < 0 ∨ 18 < s.req.a)) := by
  cases i with
  | btlN | btlX => simp [Raises]
  | encN | encX | enciN | enciX | decN | decX | bused | bcontN | bcontX | zzeN | zzeX | zzdN | zzdX | reservedBusedX | reservedRsv =>
    simp [Raises]

/-- A reserved word answers the same whatever the request fields hold. -/
theorem exec_withReq_of_reserved (i : Instr) (s t : State) (q : Request)
    (hi : i = .reservedBusedX ∨ ∃ rsv x func, i = .reservedRsv rsv x func) (h : exec i s = .next t) :
    exec i { s with req := q } = .next { t with req := q } := by
  obtain rfl | ⟨_, _, _, rfl⟩ := hi <;> cases h <;> rfl

/-- Settles O48: `raises_illegalCommand_iff` and `raises_badTableIndex_iff`; only a reserved word answers with `IllegalCommand`, and it
reads no request field (`exec_withReq_of_reserved`). -/
theorem illegalCommandAndBadTableIndexExactly : Obligations.IllegalCommandAndBadTableIndexExactly := by
  intro i s
  have hillegal := (exists_status_iff_raises i s .illegalCommand nofun).trans (raises_illegalCommand_iff i s)
  have hindex := (exists_status_iff_raises i s .badTableIndex nofun).trans (raises_badTableIndex_iff i s)
  exact ⟨hillegal, hindex, fun q t h hcode => exec_withReq_of_reserved i s t q (hillegal.mp ⟨t, h, hcode⟩) h⟩

end Sys2Proof.Machine
